-- ==== Sys2Proof/Word.lean ====
section
/-! DEFINITION. The values of the machine: natural numbers of no fixed width (00_scope.md R11). -/

namespace Sys2Proof

/-- A `Value`: what every register and every memory cell holds, a natural number (R11, R21).
There is no width; a finite `VALUE_BITS` bounds it (`Params.isValue`). -/
abbrev Value := Nat

end Sys2Proof
end

