-- ==== Sys2Proof/Config.lean ====
section
/-! DEFINITION. The implementation parameters (00_scope.md R5) and the free values. -/

namespace Sys2Proof

/-- The scalar parameters of R5: "a model takes every one of them as a configuration argument".
They stand in `State` as data that no step writes, so a statement about every state holds of every
instantiation (assumption 3). -/
structure Params where
  /-- `NUM_REGS`, written N in the spec. -/
  numRegs : Nat
  /-- `MEMORY_SIZE`. -/
  memorySize : Nat
  /-- `VALUE_BITS`: `none` for unbounded values, `some W` for values below 2^W. -/
  valueBits : Option Nat
  deriving DecidableEq, Repr

/-- A SegmentDescriptor `(base, limit)`: first cell and length in cells, no other field (R55). -/
structure SegDescriptor where
  base : Nat
  limit : Nat
  deriving DecidableEq, Repr

/-- The name of one registered function. State is plain data, so the registry holds handles, and
`Config.customOp` says what function a handle stands for. -/
abbrev FnHandle := Nat

namespace Config

/-- The values this hardware takes: N = 8, MEMORY_SIZE = 1024, VALUE_BITS = none (R5, D27, D1). -/
def hardware : Params := { numRegs := 8, memorySize := 1024, valueBits := none }

/-- `REG_INIT`: open in the spec, its default is all zero (R36, D4). DESIGN CHOICE (assumption 5). -/
def regInit : List Value := [0, 0, 0, 0, 0, 0, 0, 0]

/-- `SEGMENT_TABLE`: open in the spec (D6). DESIGN CHOICE: empty at reset (assumption 7). -/
def segmentTable : List SegDescriptor := []

/-- FREE VALUE: the function a registered handle stands for, a total function from an integer and
an integer or none to an integer, of which nothing else is assumed (R131, D22; assumption 8). -/
opaque customOp : FnHandle → Int → Option Int → Int

/-- FREE VALUE: the integer the IODevice returns on the n-th free draw, under no law (R160, D26;
assumption 9). -/
opaque ioDraw : Nat → Int

end Config

end Sys2Proof
end

