-- ==== Sys2Proof/Syntax.lean ====
section
/-! DEFINITION. Instructions: the token line, which is the only encoding the hardware has (R80), the
closed enumeration of opcodes and formats (R83, R84, R89), and the decoded instruction. -/

namespace Sys2Proof

/-- A token: a run of characters. Also an ALU operation name, a character string (R31, R130). -/
abbrev Token := List Char

/-- An instruction as `PROGRAM` and `ir` hold it: token 0 and the operand tokens in order (R80).
That token 0 exists is in the type (D25). -/
structure Line where
  op : Token
  args : List Token
  deriving DecidableEq, Repr

/-- The six operand formats (R83). -/
inductive Format where
  | z | r | a | ri | ra | rrr
  deriving DecidableEq, Repr

/-- The number of operand tokens of a format (R83, R87). -/
def Format.operands : Format → Nat
  | .z => 0
  | .r => 1
  | .a => 1
  | .ri => 2
  | .ra => 2
  | .rrr => 3

/-- The eleven opcodes, "a closed enumeration" (R80, R84, R89). -/
inductive Opcode where
  | load | add | sub | store | input | output | jump | jumpz | call | ret | halt
  deriving DecidableEq, Repr

/-- A decoded instruction: one constructor per row of `opcode_table.json`. Register operands are the
natural number of `reg(tok)` (R85), immediates and addresses that of `lit(tok)` (R86), both unbounded. -/
inductive Instr where
  /-- `LOAD Rd imm` (R140). -/
  | load (rd imm : Nat)
  /-- `ADD Rd Rs1 Rs2` (R141). -/
  | add (rd rs1 rs2 : Nat)
  /-- `SUB Rd Rs1 Rs2` (R142). -/
  | sub (rd rs1 rs2 : Nat)
  /-- `STORE Rs addr` (R150). -/
  | store (rs addr : Nat)
  /-- `INPUT Rd` (R161). -/
  | input (rd : Nat)
  /-- `OUTPUT Rs` (R162). -/
  | output (rs : Nat)
  /-- `JUMP addr` (R172). -/
  | jump (addr : Nat)
  /-- `JUMPZ addr` (R173). -/
  | jumpz (addr : Nat)
  /-- `CALL addr` (R174). -/
  | call (addr : Nat)
  /-- `RET` (R175). -/
  | ret
  /-- `HALT` (R190). -/
  | halt
  /-- The catch-all row: any other token 0, with operand tokens that nothing examines (R191). -/
  | unrecognized (op : Token) (args : List Token)
  deriving DecidableEq, Repr

end Sys2Proof
end

