-- ==== Sys2Proof/Decode.lean ====
section
/-! DEFINITION. Tokenisation, numerals, operand parsing, the decoder and, after it, the encoder
(30_encoding.md). The decoder is total: it answers an instruction or names why it rejects. -/

namespace Sys2Proof

/-! ### Tokenisation (R81, D10) -/

/-- The whitespace that separates tokens: space and horizontal tab (R81, D10). -/
def isSpace (c : Char) : Bool := c = ' ' || c = '\t'

/-- Put a token before the others unless it is empty: a token is never empty (R81). -/
def flushToken (t : Token) (ts : List Token) : List Token :=
  if t = [] then ts else t :: ts

/-- Cut a line from its right end: the token in progress, and the complete tokens after it. -/
def scanTokens : List Char → Token × List Token
  | [] => ([], [])
  | c :: cs =>
    if isSpace c then ([], flushToken (scanTokens cs).1 (scanTokens cs).2)
    else (c :: (scanTokens cs).1, (scanTokens cs).2)

/-- The tokens of a line: cut at every run of whitespace, none from whitespace at either end (R81). -/
def tokenise (cs : List Char) : List Token :=
  flushToken (scanTokens cs).1 (scanTokens cs).2

/-- A program line as an instruction; a line with no token is none (R80, D25). -/
def lineOfText (cs : List Char) : Option Line :=
  match tokenise cs with
  | [] => none
  | t :: ts => some { op := t, args := ts }

/-! ### Numerals -/

/-- The value of a digit character of a base up to ten. -/
def digitValue (base : Nat) (c : Char) : Option Nat :=
  if '0'.toNat ≤ c.toNat ∧ c.toNat < '0'.toNat + base then some (c.toNat - '0'.toNat) else none

/-- Read digits, most significant first, after the number `acc`. -/
def readDigits (base : Nat) : Nat → List Char → Option Nat
  | acc, [] => some acc
  | acc, c :: cs =>
    match digitValue base c with
    | none => none
    | some d => readDigits base (base * acc + d) cs

/-- The natural number whose notation is one or more digits; leading zeros allowed, no size limit. -/
def readNumeral (base : Nat) : List Char → Option Nat
  | [] => none
  | c :: cs => readDigits base 0 (c :: cs)

/-- The digit character of a digit below ten. -/
def digitChar (d : Nat) : Char := Char.ofNat ('0'.toNat + d)

/-- The digits of `n` before those in `acc`; the fuel bounds the number of digits. -/
def writeDigits (base : Nat) : Nat → Nat → List Char → List Char
  | 0, _, acc => acc
  | fuel + 1, n, acc =>
    if n / base = 0 then digitChar (n % base) :: acc
    else writeDigits base fuel (n / base) (digitChar (n % base) :: acc)

/-- The minimal notation of `n`, most significant digit first; zero is one digit. -/
def numeral (base n : Nat) : List Char := writeDigits base (n + 1) n []

/-! ### The opcode map -/

/-- The exact string of token 0 that selects an opcode (R84, R89). -/
def Opcode.mnemonic : Opcode → Token
  | .load => ['L', 'O', 'A', 'D']
  | .add => ['A', 'D', 'D']
  | .sub => ['S', 'U', 'B']
  | .store => ['S', 'T', 'O', 'R', 'E']
  | .input => ['I', 'N', 'P', 'U', 'T']
  | .output => ['O', 'U', 'T', 'P', 'U', 'T']
  | .jump => ['J', 'U', 'M', 'P']
  | .jumpz => ['J', 'U', 'M', 'P', 'Z']
  | .call => ['C', 'A', 'L', 'L']
  | .ret => ['R', 'E', 'T']
  | .halt => ['H', 'A', 'L', 'T']

/-- The operand format of an opcode (R83, R89). -/
def Opcode.format : Opcode → Format
  | .load => .ri
  | .add => .rrr
  | .sub => .rrr
  | .store => .ra
  | .input => .r
  | .output => .r
  | .jump => .a
  | .jumpz => .a
  | .call => .a
  | .ret => .z
  | .halt => .z

/-- The opcodes in the order of the source's dispatch table (R89). -/
def Opcode.all : List Opcode :=
  [.load, .add, .sub, .store, .input, .output, .jump, .jumpz, .call, .ret, .halt]

/-- The opcode that a token 0 selects, by exact comparison; none for any other token (R84, R90). -/
def Opcode.ofToken (t : Token) : Option Opcode :=
  Opcode.all.find? (fun o => decide (o.mnemonic = t))

/-! ### Operands -/

/-- `lit(tok)` (R86): one or more decimal digits. -/
def parseLit (tok : Token) : Option Nat := readNumeral 10 tok

/-- `reg(tok)` (R85): the marker `R` and one or more decimal digits. The index is not compared with
N here (R23). -/
def parseReg : Token → Option Nat
  | [] => none
  | c :: ds => if c = 'R' then readNumeral 10 ds else none

/-- Why a recognized opcode's line is no instruction. Every rejection becomes the fault
`MalformedInstruction` when the line is executed (R87, R208). -/
inductive DecodeError where
  /-- The number of operand tokens is not that of the opcode's format (R87). -/
  | operandCount (expected found : Nat)
  /-- The operand token at this position does not parse as its format says (R85, R86). -/
  | badOperand (position : Nat)
  deriving DecidableEq, Repr

/-- A parsed operand, or the rejection that names its token position. -/
def operand (parse : Token → Option Nat) (position : Nat) (tok : Token) : Except DecodeError Nat :=
  match parse tok with
  | some n => .ok n
  | none => .error (.badOperand position)

/-- Format `Z`: no operand. -/
def parseZ (i : Instr) : List Token → Except DecodeError Instr
  | [] => .ok i
  | ts => .error (.operandCount 0 ts.length)

/-- Formats `R` and `A`: one operand. -/
def parseOne (parse : Token → Option Nat) (mk : Nat → Instr) : List Token → Except DecodeError Instr
  | [t] => do
    let n ← operand parse 1 t
    .ok (mk n)
  | ts => .error (.operandCount 1 ts.length)

/-- Formats `RI` and `RA`: a register, then a literal. -/
def parseTwo (mk : Nat → Nat → Instr) : List Token → Except DecodeError Instr
  | [t, u] => do
    let r ← operand parseReg 1 t
    let n ← operand parseLit 2 u
    .ok (mk r n)
  | ts => .error (.operandCount 2 ts.length)

/-- Format `RRR`: three registers. -/
def parseThree (mk : Nat → Nat → Nat → Instr) : List Token → Except DecodeError Instr
  | [t, u, v] => do
    let d ← operand parseReg 1 t
    let a ← operand parseReg 2 u
    let b ← operand parseReg 3 v
    .ok (mk d a b)
  | ts => .error (.operandCount 3 ts.length)

/-- The operands of a recognized opcode: the count first, then the tokens left to right (R87, R88). -/
def parseOperands : Opcode → List Token → Except DecodeError Instr
  | .load => parseTwo .load
  | .add => parseThree .add
  | .sub => parseThree .sub
  | .store => parseTwo .store
  | .input => parseOne parseReg .input
  | .output => parseOne parseReg .output
  | .jump => parseOne parseLit .jump
  | .jumpz => parseOne parseLit .jumpz
  | .call => parseOne parseLit .call
  | .ret => parseZ .ret
  | .halt => parseZ .halt

/-- The decoder (R88): select the opcode from token 0; if unrecognized, no operand is looked at. -/
def decode (l : Line) : Except DecodeError Instr :=
  match Opcode.ofToken l.op with
  | none => .ok (.unrecognized l.op l.args)
  | some o => parseOperands o l.args

/-! ### The encoder -/

/-- The register token of an index, `R` and its decimal digits (R85). -/
def regToken (n : Nat) : Token := 'R' :: numeral 10 n

/-- The literal token of a number, its decimal digits (R86). -/
def litToken (n : Nat) : Token := numeral 10 n

/-- The token line of an instruction, by the formats of R83 and the opcode map of R89. -/
def encode : Instr → Line
  | .load rd imm => { op := Opcode.load.mnemonic, args := [regToken rd, litToken imm] }
  | .add rd rs1 rs2 => { op := Opcode.add.mnemonic, args := [regToken rd, regToken rs1, regToken rs2] }
  | .sub rd rs1 rs2 => { op := Opcode.sub.mnemonic, args := [regToken rd, regToken rs1, regToken rs2] }
  | .store rs addr => { op := Opcode.store.mnemonic, args := [regToken rs, litToken addr] }
  | .input rd => { op := Opcode.input.mnemonic, args := [regToken rd] }
  | .output rs => { op := Opcode.output.mnemonic, args := [regToken rs] }
  | .jump addr => { op := Opcode.jump.mnemonic, args := [litToken addr] }
  | .jumpz addr => { op := Opcode.jumpz.mnemonic, args := [litToken addr] }
  | .call addr => { op := Opcode.call.mnemonic, args := [litToken addr] }
  | .ret => { op := Opcode.ret.mnemonic, args := [] }
  | .halt => { op := Opcode.halt.mnemonic, args := [] }
  | .unrecognized op args => { op := op, args := args }

/-- The text of a line, its tokens separated by one space (R80, R93). -/
def lineText (l : Line) : List Char :=
  l.op ++ l.args.flatMap (fun t => ' ' :: t)

/-! ### The host's numbering of a line's bits

The hardware has no bits (R3, R80). DESIGN CHOICE (assumption 11): the bits of an instruction are
those of its text, one byte a character, the first character in bits 7..0. -/

/-- The characters of the lowest `n` bytes of `w`, up to the last byte that is not zero. -/
def textOfWord : Nat → Nat → List Char
  | 0, _ => []
  | n + 1, w => if w = 0 then [] else Char.ofNat (w % 256) :: textOfWord n (w / 256)

/-- The line that the lowest `nbits` bits of `w` spell, every bit above them zero. -/
def lineOfWord (nbits w : Nat) : Option Line :=
  lineOfText (textOfWord ((nbits + 7) / 8) (w % 2 ^ nbits))

/-- The instruction the decoder reads from the text that `w` spells; none where it rejects. -/
def decodeTableWord (nbits w : Nat) : Option Instr :=
  match lineOfWord nbits w with
  | none => none
  | some l => (decode l).toOption

end Sys2Proof
end

