-- ==== Sys2Proof/WellFormed.lean ====
section
/-! DEFINITION. Which tokens, lines, instructions, parameters
and segment tables are well formed. -/

namespace Sys2Proof

/-- A token is never empty and holds no whitespace (R81). -/
def Token.wf (t : Token) : Bool := decide (t ≠ []) && t.all (fun c => !isSpace c)

/-- A line that the tokeniser can produce. -/
def Line.wf (l : Line) : Bool := Token.wf l.op && l.args.all Token.wf

/-- A program that `PROGRAM` can hold: every instruction is a list of proper tokens (R80, R81, D25). -/
def programWf (program : List Line) : Bool := program.all Line.wf

/-- The instructions that some line decodes to: every register index and every literal is one, and the
catch-all row takes proper tokens whose token 0 is none of the eleven mnemonics (R84 to R86, R191). -/
def Instr.wf : Instr → Bool
  | .load _ _ => true
  | .add _ _ _ => true
  | .sub _ _ _ => true
  | .store _ _ => true
  | .input _ => true
  | .output _ => true
  | .jump _ => true
  | .jumpz _ => true
  | .call _ => true
  | .ret => true
  | .halt => true
  | .unrecognized op args => (Opcode.ofToken op).isNone && Line.wf { op := op, args := args }

/-- `v` is a `Value` under these parameters: below 2^W when `VALUE_BITS = some W` (R11). -/
def Params.isValue (p : Params) (v : Nat) : Bool :=
  match p.valueBits with
  | none => true
  | some w => decide (v < 2 ^ w)

/-- N is at least 1 (R5). -/
def Params.wf (p : Params) : Bool := decide (1 ≤ p.numRegs)

/-- "base+limit ≤ MEMORY_SIZE for every entry" (R30, R55). -/
def Params.segtabWf (p : Params) (t : List SegDescriptor) : Bool :=
  t.all (fun d => decide (d.base + d.limit ≤ p.memorySize))

end Sys2Proof
end

