-- ==== Sys2Proof/Machine/State.lean ====
section
/-! DEFINITION. The state of the machine (10_state.md R20 to R42), the reasons a run or an operation
can stop, and the state after reset. -/

namespace Sys2Proof.Machine

/-- The faults of the spec (60_exceptions.md R201), each with the info it records. During a run a fault
is TAKEN: `takeFault` gives the next state of R211, so no step answers `Outcome.fault` (assumption 1;
safe: every field R211 gives is there). A host-port call that fails is rejected with one (R217). -/
inductive Fault where
  /-- A register index i >= N (R202). Raised by LOAD, ADD, SUB, STORE, INPUT, OUTPUT and host register
  accesses. Safe: the spec's own fault. -/
  | invalidRegister (i : Nat)
  /-- A flat address >= MEMORY_SIZE (R203). Raised by STORE and host memory accesses. Safe. -/
  | invalidAddress (a : Nat)
  /-- A segment number out of table range (R204). Raised by host-port calls only. Safe. -/
  | invalidSegment (seg : Nat)
  /-- A segment offset >= the limit (R205). Raised by host-port calls only. Safe. -/
  | invalidOffset (seg offset : Nat)
  /-- A name neither registered nor built in (R206). Raised by host-port calls of the ALU only. Safe. -/
  | unknownOperation (name : Token)
  /-- A wrong operand count or an operand token that does not parse, with the instruction and its
  position (R208). Raised when the line of any recognized opcode is decoded for execution. Safe. -/
  | malformedInstruction (line : Line) (position : Nat)
  /-- An integer z < 0 about to be written to a register (R209, D2, D3). Raised by SUB, INPUT, and by
  LOAD, ADD, SUB under a custom operation. Safe: the spec rejects where the source is undefined. -/
  | negativeValue (z : Int)
  /-- An integer z >= 2^W when VALUE_BITS = some W (R210, D1). Raised by LOAD, ADD, INPUT and custom
  operations. Safe: it does not exist with unbounded values. -/
  | valueOverflow (z : Int)
  deriving DecidableEq, Repr

/-- The reasons an operation has no meaning here. Every one but `notModelled` and `aluNoInteger` is
about host-port calls and launches, which no instruction makes. -/
inductive Refusal where
  /-- An instruction that has no meaning yet. Raised by no arm of `exec`. Safe. -/
  | notModelled (mnemonic : String)
  /-- An ALU call whose result is not an integer was asked for one. No instruction can raise it: the
  CPU calls LOAD, ADD and SUB only, with their operands (R135, R143; law `aluThen_spec`). Safe. -/
  | aluNoInteger (name : Token)
  /-- A host call of the built-in ADD or SUB without a second operand (R144, D23). Safe. -/
  | missingOperand (name : Token)
  /-- A host call while a run is in progress (R8, R68, D20). Safe. -/
  | runInProgress
  /-- A host write of a number that is no `Value` under the parameters (R11, R23, R53). Safe. -/
  | notAValue (v : Nat)
  /-- A segment table that breaks base + limit <= MEMORY_SIZE (R55, D6). Safe. -/
  | badSegmentTable
  /-- Launch parameters that are not of the shape of R5, R36, R39, or a program with an instruction that is
  no list of proper tokens (R80, R81; assumption 29). Safe. -/
  | badLaunch
  /-- The Assembler's rejection of a line whose opcode is not in the whitelist (R95, R207). That it is the
  first such line, with its position, is a DESIGN CHOICE (assumption 32). Safe. -/
  | unknownInstruction (line : Line) (position : Nat)
  /-- A text line with no token, refused by the transcriber (R93, D25). Safe. -/
  | notAnInstruction (position : Nat)
  /-- A text line whose token 0 is one of the eleven mnemonics only after case folding, refused by the
  transcriber as D10 advises. Safe. -/
  | mnemonicCase (line : Line) (position : Nat)
  /-- A text line that is not `OPCODE arg1 arg2 ...` with operands in the syntax of R85 and R86, such as a
  comment, a label or a directive, refused by the transcriber (R93; assumption 30). Safe. -/
  | notProgramText (line : Line) (position : Nat)
  deriving DecidableEq, Repr

/-- What `ir` can hold: nothing before the first fetch, an instruction, or the end-of-program sentinel
`END` (R26, C3). -/
inductive InstrReg where
  | none
  | line (l : Line)
  | endMarker
  deriving DecidableEq, Repr

/-- Why a run halted (R32, R114). -/
inductive HaltReason where
  | haltInstruction
  | endOfProgram
  | returnOnEmptyStack
  deriving DecidableEq, Repr

/-- How far the run has come (R32). -/
inductive Status where
  | running
  | halted (reason : HaltReason)
  | faulted (fault : Fault)
  deriving DecidableEq, Repr

/-- One event of the I/O trace: `In(z)` or `Out(v)` (R33, R160). -/
inductive IoEvent where
  | input (z : Int)
  | output (v : Value)
  deriving DecidableEq, Repr

/-- One message of the report port (R9, D24). A fault report carries the fault with its info, the
instruction register and the position `pc - 1` (R211). -/
inductive Report where
  | registers (values : List Value)
  | unrecognized (line : Line)
  | fault (f : Fault) (ir : InstrReg) (position : Nat)
  deriving DecidableEq, Repr

/-- MemorySpace (R29): the cells that do not hold what an unlisted address reads as, addresses strictly
rising. A cell holds one whole `Value`; it has no bytes (R51, R61; assumption 10). -/
abbrev Memory := List (Nat × Value)

/-- What an unlisted address reads as: the default MEM_INIT, canonical zero (R39, D5). DESIGN CHOICE
(assumption 6). -/
def Memory.unlisted : Value := 0

/-- The canonical form: addresses strictly rising, no cell equal to an unlisted one. -/
abbrev Memory.wf (m : Memory) : Prop :=
  m.Pairwise (fun x y => x.1 < y.1) ∧ ∀ c ∈ m, c.2 ≠ Memory.unlisted

/-- The ALU registry (R31): a finite map from operation names to functions, held as handles; at most one
entry a name. -/
abbrev Registry := List (Token × FnHandle)

/-- The whole state (R20), with the parameters, the program and the environment's traces, which the step
reads (R5, R6, R33; assumptions 3, 4, 9). -/
structure State where
  /-- The scalar parameters (R5). No step writes them. -/
  params : Params
  /-- RegisterFile (R22). -/
  regs : List Value
  /-- ProgramCounter (R25). -/
  pc : Nat
  /-- InstructionRegister (R26). -/
  ir : InstrReg
  /-- CallStack, top last (R28). -/
  stack : List Nat
  /-- How far the run has come (R32). -/
  status : Status
  /-- MemorySpace (R29). -/
  mem : Memory
  /-- SegmentTable (R30). -/
  segtab : List SegDescriptor
  /-- The ALU's registry of user-defined operations (R31). -/
  registry : Registry
  /-- PROGRAM, immutable (R6). A launch accepts proper token lists only; in a state that holds another line
  the step runs it as it stands (assumption 29). -/
  program : List Line
  /-- The integers the IODevice will return next, in order (R33). -/
  inputs : List Int
  /-- The model's own counter of free draws, one for each IoIn past the end of `inputs`. -/
  draws : Nat
  /-- The I/O trace, oldest event first (R33, R160). -/
  ioTrace : List IoEvent
  /-- The report events, oldest first (R9, R33). -/
  reports : List Report
  deriving DecidableEq, Repr

/-- The launch state of a CPU instance over a program (R36 to R40, R232). -/
def State.launch (p : Params) (segtab : List SegDescriptor) (mem : Memory) (registry : Registry)
    (regInit : List Value) (program : List Line) (inputs : List Int) : State :=
  { params := p, regs := regInit, pc := 0, ir := .none, stack := [], status := .running, mem := mem,
    segtab := segtab, registry := registry, program := program, inputs := inputs, draws := 0,
    ioTrace := [], reports := [] }

/-- The machine right after reset: process start (R231), then a CPU instance (R232) over the empty
program, which a launch replaces (assumption 4). -/
def State.reset : State :=
  State.launch Config.hardware Config.segmentTable [] [] Config.regInit [] []

end Sys2Proof.Machine
end

