-- ==== Sys2Proof/Machine/Ops.lean ====
section
/-! DEFINITION. The shared operations: the update functions of State, taking a fault, halting, the
memory and segment operations, the call stack and the ports. -/

namespace Sys2Proof.Machine

/-- The outcome of one step or one meaning. -/
abbrev StepOutcome := Host.Outcome State Fault Refusal

/-! ### One update function a field that is written during a run -/

/-- `pc <- t` (R25). -/
def State.setPc (s : State) (t : Nat) : State := { s with pc := t }

/-- `ir <- e` (R26). -/
def State.setIr (s : State) (e : InstrReg) : State := { s with ir := e }

/-- Replace the register file. -/
def State.setRegs (s : State) (rs : List Value) : State := { s with regs := rs }

/-- Replace the call stack. -/
def State.setStack (s : State) (st : List Nat) : State := { s with stack := st }

/-- Replace the memory. -/
def State.setMem (s : State) (m : Memory) : State := { s with mem := m }

/-- `status <- st` (R32). -/
def State.setStatus (s : State) (st : Status) : State := { s with status := st }

/-- Emit one event on the report port (R9). -/
def State.emit (s : State) (r : Report) : State := { s with reports := s.reports ++ [r] }

/-- Append one event to the I/O trace (R160). -/
def State.logIo (s : State) (e : IoEvent) : State := { s with ioTrace := s.ioTrace ++ [e] }

/-! ### Faults and halts -/

/-- TAKING A FAULT (R15, R211): the status becomes Faulted for good and one ReportFault is emitted; what
earlier statements of the cycle wrote stands, `ir` and `pc` among it, and nothing else changes. There is
no return from it (R216). -/
def takeFault (f : Fault) (s : State) : State :=
  (s.setStatus (.faulted f)).emit (.fault f s.ir (s.pc - 1))

/-- `raise F(info)` (R15): the cycle ends here in the state `takeFault` gives. -/
def raise (f : Fault) (s : State) : StepOutcome := .next (takeFault f s)

/-- Go on with the result of an operation, or raise its fault in the state `s`. -/
def orRaise {α : Type} (r : Except Fault α) (s : State) (k : α → StepOutcome) : StepOutcome :=
  match r with
  | .ok a => k a
  | .error f => raise f s

/-- `halt(reason)`: `status <- Halted(reason)` (R113). -/
def halt (reason : HaltReason) (s : State) : State := s.setStatus (.halted reason)

/-! ### Flat memory (20_memory.md R52, R53) -/

/-- The cell at an address. -/
def Memory.get (a : Nat) : Memory → Value
  | [] => Memory.unlisted
  | (b, w) :: m => if a = b then w else Memory.get a m

/-- A cell before those of `m`, left out where it holds what an unlisted address reads as. -/
def Memory.cons (a : Nat) (v : Value) (m : Memory) : Memory :=
  if v = Memory.unlisted then m else (a, v) :: m

/-- Write one cell, keeping the canonical form. -/
def Memory.put (a : Nat) (v : Value) : Memory → Memory
  | [] => Memory.cons a v []
  | (b, w) :: m =>
    if a < b then Memory.cons a v ((b, w) :: m)
    else if a = b then Memory.cons a v m
    else (b, w) :: Memory.put a v m

/-- `MemRead(a, 1)` (R52). -/
def memRead (a : Nat) (s : State) : Except Fault Value :=
  if s.params.memorySize ≤ a then .error (.invalidAddress a) else .ok (s.mem.get a)

/-- `MemWrite(a, 1, v)` (R53). -/
def memWrite (a : Nat) (v : Value) (s : State) : Except Fault State :=
  if s.params.memorySize ≤ a then .error (.invalidAddress a) else .ok (s.setMem (s.mem.put a v))

/-! ### Segmented memory (R56 to R58) -/

/-- `SegTranslate(seg, offset)`: the segment check comes first (R56). -/
def segTranslate (seg offset : Nat) (s : State) : Except Fault Nat :=
  match s.segtab[seg]? with
  | none => .error (.invalidSegment seg)
  | some d => if d.limit ≤ offset then .error (.invalidOffset seg offset) else .ok (d.base + offset)

/-- `read_segmented(seg, offset)` (R57). -/
def readSegmented (seg offset : Nat) (s : State) : Except Fault Value := do
  let a ← segTranslate seg offset s
  memRead a s

/-- `write_segmented(seg, offset, value)` (R58). -/
def writeSegmented (seg offset : Nat) (v : Value) (s : State) : Except Fault State := do
  let a ← segTranslate seg offset s
  memWrite a v s

/-! ### The CallStack (44_control.md R170) -/

/-- `push(v)`: the new top is last. -/
def push (v : Nat) (s : State) : State := s.setStack (s.stack ++ [v])

/-- `pop()`, or none where `empty()` holds: the top, and the state without it. -/
def pop (s : State) : Option (Nat × State) :=
  match s.stack.getLast? with
  | none => none
  | some v => some (v, s.setStack s.stack.dropLast)

/-! ### The ports (43_io.md R160) -/

/-- `IoIn()`: the next integer of the device, logged as `In(z)`. Past the end of `inputs` it is a free
draw, so every call returns (D26; assumption 9). -/
def ioIn (s : State) : Int × State :=
  match s.inputs with
  | z :: rest => (z, { s with inputs := rest }.logIo (.input z))
  | [] => (Config.ioDraw s.draws, { s with draws := s.draws + 1 }.logIo (.input (Config.ioDraw s.draws)))

/-- `IoOut(v)`: hand `v` to the device, logged as `Out(v)`. -/
def ioOut (v : Value) (s : State) : State := s.logIo (.output v)

end Sys2Proof.Machine
end

