-- ==== Sys2Proof/Machine/Flags.lean ====
section
/-! DEFINITION. The block has no flags and no condition codes (10_state.md R27). What stands here is what
takes their place: the one condition an instruction tests, and the check of a result. -/

namespace Sys2Proof.Machine

/-- The condition of JUMPZ: register 0 equals canonical zero (R27, R173). -/
def registerZeroIsZero (s : State) : Bool := s.regs.getD 0 0 = 0

/-- `canon(z)`, the check every result passes before it is written to a register (00_scope.md R12): a
negative integer is rejected (D2, D3), and one that a finite VALUE_BITS does not hold (D1). -/
def canon (p : Params) (z : Int) : Except Fault Value :=
  if z < 0 then .error (.negativeValue z)
  else
    match p.valueBits with
    | none => .ok z.toNat
    | some w => if (2 : Int) ^ w ≤ z then .error (.valueOverflow z) else .ok z.toNat

end Sys2Proof.Machine
end

