-- ==== Sys2Proof/Machine/Operands.lean ====
section
/-! DEFINITION. Register operands as an instruction reads and writes them (10_state.md R23). Literals and
addresses are used as they stand (30_encoding.md R86). -/

namespace Sys2Proof.Machine

/-- `x[i]` (R23). -/
def readReg (i : Nat) (s : State) : Except Fault Value :=
  if s.params.numRegs ≤ i then .error (.invalidRegister i) else .ok (s.regs.getD i 0)

/-- `x[i] <- v` (R23). -/
def writeReg (i : Nat) (v : Value) (s : State) : Except Fault State :=
  if s.params.numRegs ≤ i then .error (.invalidRegister i) else .ok (s.setRegs (s.regs.set i v))

/-- `x[d] <- canon(z)`, then continue: the end of LOAD, ADD, SUB and INPUT. The result is checked before
the destination index (60_exceptions.md R213). -/
def writeBack (d : Nat) (z : Int) (s : State) : StepOutcome :=
  orRaise (canon s.params z) s fun v => orRaise (writeReg d v s) s .next

end Sys2Proof.Machine
end

