-- ==== Sys2Proof/Machine/Alu.lean ====
section
/-! DEFINITION. The ALU unit (41_alu.md R130 to R138, R144). -/

namespace Sys2Proof.Machine

/-- What `ALU.execute` can answer (R130). -/
inductive AluResult where
  /-- An integer. -/
  | value (z : Int)
  /-- `NOP_SENTINEL`, distinct from every integer (R135). -/
  | nopSentinel
  /-- The failure `UnknownOperation(op)` (R136). -/
  | unknownOperation (name : Token)
  /-- The built-in ADD or SUB without a second operand, to which the spec gives no meaning (R144, D23). -/
  | noMeaning
  deriving DecidableEq, Repr

/-- The names the CPU issues and the fourth built-in (R130). -/
def aluAdd : Token := ['A', 'D', 'D']
def aluSub : Token := ['S', 'U', 'B']
def aluLoad : Token := ['L', 'O', 'A', 'D']
def aluHalt : Token := ['H', 'A', 'L', 'T']

/-- The function registered under a name. -/
def Registry.find (name : Token) : Registry → Option FnHandle
  | [] => none
  | (n, h) :: r => if name = n then some h else Registry.find name r

/-- `define_operation(name, fn)` on the registry: insert or overwrite (R137). -/
def Registry.define (name : Token) (fn : FnHandle) (r : Registry) : Registry :=
  (name, fn) :: r.filter (fun e => decide (e.1 ≠ name))

/-- The built-ins (R132 to R136). -/
def aluBuiltin (op : Token) (a : Int) (b : Option Int) : AluResult :=
  if op = aluAdd then
    match b with
    | some b => .value (a + b)
    | none => .noMeaning
  else if op = aluSub then
    match b with
    | some b => .value (a - b)
    | none => .noMeaning
  else if op = aluLoad then .value a
  else if op = aluHalt then .nopSentinel
  else .unknownOperation op

/-- `ALU.execute(op, a, b)`: the registry is consulted first, and a custom result is returned unmodified
(R130, R131). -/
def aluExecute (r : Registry) (op : Token) (a : Int) (b : Option Int) : AluResult :=
  match r.find op with
  | some fn => .value (Config.customOp fn a b)
  | none => aluBuiltin op a b

/-- An ALU call by the CPU: go on with the integer it answers. An unknown name would be fatal to the run
(R206), and the other two answers have no integer; no instruction can cause any of the three (R143). -/
def aluThen (op : Token) (a : Int) (b : Option Int) (s : State) (k : Int → StepOutcome) : StepOutcome :=
  match aluExecute s.registry op a b with
  | .value z => k z
  | .nopSentinel => .refused (.aluNoInteger op)
  | .unknownOperation name => raise (.unknownOperation name) s
  | .noMeaning => .refused (.aluNoInteger op)

end Sys2Proof.Machine
end

