-- ==== Sys2Proof/Machine/Arithmetic.lean ====
section
/-! DEFINITION. LOAD, ADD, SUB (41_alu.md R140 to R142). -/

namespace Sys2Proof.Machine

/-- `LOAD Rd imm`: `x[d] <- canon(ALU("LOAD", m, none))` (R140). It reads no memory (R151). -/
def execLoad (rd imm : Nat) (s : State) : StepOutcome :=
  aluThen aluLoad (imm : Int) none s fun z => writeBack rd z s

/-- `ADD Rd Rs1 Rs2`: both sources are read, then `x[d] <- canon(ALU("ADD", a, b))` (R141). -/
def execAdd (rd rs1 rs2 : Nat) (s : State) : StepOutcome :=
  orRaise (readReg rs1 s) s fun a =>
  orRaise (readReg rs2 s) s fun b =>
  aluThen aluAdd (a : Int) (some (b : Int)) s fun z => writeBack rd z s

/-- `SUB Rd Rs1 Rs2`: as ADD, with `ALU("SUB", a, b)`; a negative result faults (R142, R139). -/
def execSub (rd rs1 rs2 : Nat) (s : State) : StepOutcome :=
  orRaise (readReg rs1 s) s fun a =>
  orRaise (readReg rs2 s) s fun b =>
  aluThen aluSub (a : Int) (some (b : Int)) s fun z => writeBack rd z s

end Sys2Proof.Machine
end

