-- ==== Sys2Proof/Machine/Control.lean ====
section
/-! DEFINITION. JUMP, JUMPZ, CALL, RET (44_control.md R172 to R175). `pc` is already the position after
the instruction when a meaning runs (10_state.md R25). No target is compared with L (R176). -/

namespace Sys2Proof.Machine

/-- `JUMP addr` (R172). -/
def execJump (addr : Nat) (s : State) : StepOutcome := .next (s.setPc addr)

/-- `JUMPZ addr`: the tested register is always register 0 (R173). -/
def execJumpz (addr : Nat) (s : State) : StepOutcome :=
  .next (if registerZeroIsZero s then s.setPc addr else s)

/-- `CALL addr`: push the incremented `pc`, the return address, then go to `addr` (R174). -/
def execCall (addr : Nat) (s : State) : StepOutcome := .next ((push s.pc s).setPc addr)

/-- `RET`: a graceful halt on an empty stack, else go to the popped position (R175). -/
def execRet (s : State) : StepOutcome :=
  match pop s with
  | none => .next (halt .returnOnEmptyStack s)
  | some (v, t) => .next (t.setPc v)

end Sys2Proof.Machine
end

