-- ==== Sys2Proof/Machine/InputOutput.lean ====
section
/-! DEFINITION. INPUT and OUTPUT (43_io.md R161, R162). -/

namespace Sys2Proof.Machine

/-- `INPUT Rd`: one integer is taken from the device, then `x[d] <- canon(z)`; a fault after the take
leaves the integer consumed (R161, D14). -/
def execInput (rd : Nat) (s : State) : StepOutcome :=
  writeBack rd (ioIn s).1 (ioIn s).2

/-- `OUTPUT Rs`: the value of Rs is handed to the device (R162). -/
def execOutput (rs : Nat) (s : State) : StepOutcome :=
  orRaise (readReg rs s) s fun v => .next (ioOut v s)

end Sys2Proof.Machine
end

