-- ==== Sys2Proof/Machine/Store.lean ====
section
/-! DEFINITION. STORE (42_store.md R150). -/

namespace Sys2Proof.Machine

/-- `STORE Rs addr`: the register is read, then the whole value is written to the flat cell `addr`
(R150, R213). There is no segmented form (R152). -/
def execStore (rs addr : Nat) (s : State) : StepOutcome :=
  orRaise (readReg rs s) s fun v => orRaise (memWrite addr v s) s .next

end Sys2Proof.Machine
end

