-- ==== Sys2Proof/Machine/System.lean ====
section
/-! DEFINITION. HALT and the catch-all row (45_halt_unrecognized.md R190, R191). -/

namespace Sys2Proof.Machine

/-- `HALT`: it makes no ALU call (R190, C9). -/
def execHalt (s : State) : StepOutcome := .next (halt .haltInstruction s)

/-- An unrecognized opcode: reported, no other effect, the run continues (R191). -/
def execUnrecognized (op : Token) (args : List Token) (s : State) : StepOutcome :=
  .next (s.emit (.unrecognized { op := op, args := args }))

end Sys2Proof.Machine
end

