-- ==== Sys2Proof/Machine/Dispatch.lean ====
section
/-! DEFINITION. The dispatch table (40_cycle.md R112): one arm per row of the opcode table. -/

namespace Sys2Proof.Machine

def exec (i : Instr) (s : State) : Host.Outcome State Fault Refusal :=
  match i with
  | .load rd imm => Sys2Proof.Machine.execLoad rd imm s
  | .add rd rs1 rs2 => Sys2Proof.Machine.execAdd rd rs1 rs2 s
  | .sub rd rs1 rs2 => Sys2Proof.Machine.execSub rd rs1 rs2 s
  | .store rs addr => Sys2Proof.Machine.execStore rs addr s
  | .input rd => Sys2Proof.Machine.execInput rd s
  | .output rs => Sys2Proof.Machine.execOutput rs s
  | .jump addr => Sys2Proof.Machine.execJump addr s
  | .jumpz addr => Sys2Proof.Machine.execJumpz addr s
  | .call addr => Sys2Proof.Machine.execCall addr s
  | .ret => Sys2Proof.Machine.execRet s
  | .halt => Sys2Proof.Machine.execHalt s
  | .unrecognized op args => Sys2Proof.Machine.execUnrecognized op args s

end Sys2Proof.Machine
end

