-- ==== Sys2Proof/Machine/Cycle.lean ====
section
/-! DEFINITION. The fetch, decode and execute cycle and the report at a halt (40_cycle.md R110 to R115),
and how a line is put where the next fetch reads. -/

namespace Sys2Proof.Machine

/-- `fetch()` (R111): within the program's bounds, `ir` takes the instruction at `pc` and `pc` is
incremented; otherwise `ir` takes `END`. -/
def fetch (s : State) : State :=
  match s.program[s.pc]? with
  | some l => (s.setIr (.line l)).setPc (s.pc + 1)
  | none => s.setIr .endMarker

/-- Decode a fetched line and run it; a line of a recognized opcode that is no instruction is the fault
`MalformedInstruction(ir, pc - 1)` (R87, R88, R112). -/
def runLine (l : Line) (s : State) : StepOutcome :=
  match decode l with
  | .ok i => exec i s
  | .error _ => raise (.malformedInstruction l (s.pc - 1)) s

/-- `decode_execute()` (R112). Fetch never leaves `ir` empty, so the first case runs in no cycle. -/
def decodeExecute (s : State) : StepOutcome :=
  match s.ir with
  | .none => .next s
  | .line l => runLine l s
  | .endMarker => .next (halt .endOfProgram s)

/-- The register report that follows a halt and no other end of a cycle (R114, R115). -/
def reportIfHalted (t : State) : State :=
  match t.status with
  | .halted _ => t.emit (.registers t.regs)
  | .running => t
  | .faulted _ => t

/-- The end of a cycle: the final report where it halted the run. -/
def finishCycle (o : StepOutcome) : StepOutcome :=
  match o with
  | .next t => .next (reportIfHalted t)
  | .fault f => .fault f
  | .refused r => .refused r

/-- One pass of the loop of R114 while the status is Running; a run that is over stays as it is (R32,
R239; assumption 2). -/
def cycle (s : State) : StepOutcome :=
  match s.status with
  | .running => finishCycle (decodeExecute (fetch s))
  | .halted _ => .next s
  | .faulted _ => .next s

/-- The program with the line `l` at position `n`; positions between the program's end and `n` take `l`
too, so that `n` is within bounds. -/
def placeLine (l : Line) : Nat → List Line → List Line
  | 0, [] => [l]
  | 0, _ :: rest => l :: rest
  | n + 1, [] => l :: placeLine l n []
  | n + 1, x :: rest => x :: placeLine l n rest

/-- The state with the line `l` where the next fetch reads and the run in progress. -/
def withFetchLine (l : Line) (s : State) : State :=
  { s with program := placeLine l s.pc s.program, status := .running }

/-- As `withFetchLine`, for the line that the bits of `w` spell; a text with no token is no instruction,
and `PROGRAM` cannot hold it (D25). -/
def placeFetchWord (s : State) (nbits w : Nat) : State :=
  match lineOfWord nbits w with
  | some l => withFetchLine l s
  | none => s

end Sys2Proof.Machine
end

