-- ==== Sys2Proof/Machine/Step.lean ====
section
/-! DEFINITION. One step of the machine: one cycle (40_cycle.md R110, R114). -/

namespace Sys2Proof.Machine

/-- One cycle while the run is in progress; a run that is over stays as it is. -/
def step (s : State) : Host.Outcome State Fault Refusal := cycle s

/-- The state with the instruction that `w` spells where the next fetch reads (assumption 11). -/
def State.withFetchWord (s : State) (nbits w : Nat) : State := placeFetchWord s nbits w

end Sys2Proof.Machine
end

