-- ==== Sys2Proof/Machine/HostPort.lean ====
section
/-! DEFINITION. The host port (00_scope.md R8), process start and CPU construction (R231, R232), the
transcriber and the Assembler's whitelist (30_encoding.md R93, R95), and the rendering of R13. No step
calls anything of this file. -/

namespace Sys2Proof.Machine

/-- The operations of the host port (R8). -/
inductive HostOp where
  /-- `RegisterFile.read(i)` (R23). -/
  | readReg (i : Nat)
  /-- `RegisterFile.write(i, v)` (R23). -/
  | writeReg (i v : Nat)
  /-- `MemorySpace.read(addr)` (R52). -/
  | memRead (a : Nat)
  /-- `MemorySpace.write(addr, value)` (R53). -/
  | memWrite (a v : Nat)
  /-- `MemorySpace.read_segmented(seg, offset)` (R57). -/
  | readSegmented (seg offset : Nat)
  /-- `MemorySpace.write_segmented(seg, offset, value)` (R58). -/
  | writeSegmented (seg offset v : Nat)
  /-- `ALU.execute(op, a, b)` (R130). -/
  | aluExecute (op : Token) (a : Int) (b : Option Int)
  /-- `ALU.define_operation(name, fn)` (R137). -/
  | defineOperation (name : Token) (fn : FnHandle)
  /-- Construct a CPU instance over a program, with its REG_INIT and CUSTOM_OPS (R232). -/
  | construct (program : List Line) (regInit : List Value) (customOps : Registry)
  /-- Inspect the whole state: `pc`, `ir`, `stack`, `status` and every other field (R8, R115, R116;
  assumption 31). -/
  | inspect
  deriving DecidableEq, Repr

/-- What a host-port call that succeeds answers. -/
inductive HostAnswer where
  | done
  | value (v : Value)
  | integer (z : Int)
  | nopSentinel
  | state (s : State)
  deriving DecidableEq, Repr

/-- A host-port call succeeds, is rejected with a fault and changes nothing (R217), or is refused. -/
inductive HostResult where
  | ok (answer : HostAnswer) (s : State)
  | rejected (f : Fault)
  | refused (r : Refusal)
  deriving DecidableEq, Repr

/-- A run is in progress: a cycle has run and the run is not over. DESIGN CHOICE (assumption 19): the
launch state, whose `ir` is still empty, is before the run. -/
def runInProgress (s : State) : Bool := decide (s.status = .running) && decide (s.ir ≠ .none)

/-- A read that changes nothing. -/
def hostRead (r : Except Fault Value) (s : State) : HostResult :=
  match r with
  | .ok v => .ok (.value v) s
  | .error f => .rejected f

/-- A write of `v`, refused where `v` is no Value. -/
def hostWrite (v : Nat) (r : Except Fault State) (s : State) : HostResult :=
  if s.params.isValue v then
    match r with
    | .ok t => .ok .done t
    | .error f => .rejected f
  else .refused (.notAValue v)

/-- A direct call of the ALU (R130, R136, R144, R217). -/
def hostAlu (op : Token) (a : Int) (b : Option Int) (s : State) : HostResult :=
  match Sys2Proof.Machine.aluExecute s.registry op a b with
  | .value z => .ok (.integer z) s
  | .nopSentinel => .ok .nopSentinel s
  | .unknownOperation name => .rejected (.unknownOperation name)
  | .noMeaning => .refused (.missingOperand op)

/-- REG_INIT is N Values (R36). -/
def regInitWf (p : Params) (rs : List Value) : Bool :=
  decide (rs.length = p.numRegs) && rs.all p.isValue

/-- What construction can take: N Values (R36) and a program of proper token lists (R80, R81). That a launch
checks the second is a DESIGN CHOICE (assumption 29). -/
def launchable (p : Params) (rs : List Value) (program : List Line) : Bool :=
  regInitWf p rs && programWf program

/-- CPU construction (R232): fresh `pc`, `ir`, `stack`, `status` and `regs`; MemorySpace and SegmentTable
untouched, the environment's streams too. It takes any list of lines, and `launchable` is asked before
(assumptions 20, 29). -/
def construct (program : List Line) (regInit : List Value) (customOps : Registry) (s : State) : State :=
  { s with
    regs := regInit, pc := 0, ir := .none, stack := [], status := .running, registry := customOps,
    program := program }

/-- One call through the host port (R8). During a run the host does nothing (R8, R68). -/
def hostStep (op : HostOp) (s : State) : HostResult :=
  if runInProgress s then .refused .runInProgress
  else
    match op with
    | .readReg i => hostRead (Sys2Proof.Machine.readReg i s) s
    | .writeReg i v => hostWrite v (Sys2Proof.Machine.writeReg i v s) s
    | .memRead a => hostRead (Sys2Proof.Machine.memRead a s) s
    | .memWrite a v => hostWrite v (Sys2Proof.Machine.memWrite a v s) s
    | .readSegmented seg o => hostRead (Sys2Proof.Machine.readSegmented seg o s) s
    | .writeSegmented seg o v => hostWrite v (Sys2Proof.Machine.writeSegmented seg o v s) s
    | .aluExecute op a b => hostAlu op a b s
    | .defineOperation name fn => .ok .done { s with registry := s.registry.define name fn }
    | .construct program rs ops =>
      if launchable s.params rs program then .ok .done (Sys2Proof.Machine.construct program rs ops s)
      else .refused .badLaunch
    | .inspect => .ok (.state s) s

/-- MEM_INIT is a canonical list of Values at addresses of the space (R39). -/
def memInitWf (p : Params) (m : Memory) : Bool :=
  decide m.wf && m.all (fun c => decide (c.1 < p.memorySize) && p.isValue c.2)

/-- Process start and the first launch (R231, R232): refused where the segment table breaks its
invariant (R55, D6) or a launch parameter is not of its shape. -/
def processStart (p : Params) (segtab : List SegDescriptor) (mem : Memory) (registry : Registry)
    (regInit : List Value) (program : List Line) (inputs : List Int) : Except Refusal State :=
  if p.segtabWf segtab then
    if p.wf && memInitWf p mem && launchable p regInit program then
      .ok (State.launch p segtab mem registry regInit program inputs)
    else .error .badLaunch
  else .error .badSegmentTable

/-- Token 0 is no mnemonic, and is one after case folding (D10). -/
def mnemonicInOtherCase (t : Token) : Bool :=
  (Opcode.ofToken t).isNone && (Opcode.ofToken (t.map Char.toUpper)).isSome

/-- A token with the shape of a mnemonic: a letter, then letters and digits. DESIGN CHOICE (assumption 30). -/
def mnemonicShape : Token → Bool
  | [] => false
  | c :: cs => c.isAlpha && cs.all Char.isAlphanum

/-- A token in the operand syntax: a register or a literal (R85, R86, R93). -/
def operandShape (t : Token) : Bool := (parseReg t).isSome || (parseLit t).isSome

/-- A line of program text, `OPCODE arg1 arg2 ...` in the operand syntax (R93). No comment, label, directive
or expression is one; whether the opcode is known and its operands fit is not asked (assumption 30). -/
def isProgramText (l : Line) : Bool := mnemonicShape l.op && l.args.all operandShape

/-- One text line for position `n`. Refused are a line with no token (D25), one whose mnemonic is one of the
eleven in other letters' case (D10; assumption 15), and one that is no line of program text (R93). -/
def transcribeLine (n : Nat) (cs : List Char) : Except Refusal Line :=
  match lineOfText cs with
  | none => .error (.notAnInstruction n)
  | some l =>
    if mnemonicInOtherCase l.op then .error (.mnemonicCase l n)
    else if isProgramText l then .ok l
    else .error (.notProgramText l n)

/-- The transcriber: text line k becomes `PROGRAM[k]` (R93). DESIGN CHOICE (assumption 32): of several refused
lines the refusal names the first, with its position. -/
def transcribe : Nat → List (List Char) → Except Refusal (List Line)
  | _, [] => .ok []
  | n, cs :: rest => do
    let l ← transcribeLine n cs
    let ls ← transcribe (n + 1) rest
    .ok (l :: ls)

/-- The Assembler's one check (R95): the opcode whitelist, with no operand check. DESIGN CHOICE (assumption
32): of several lines outside the whitelist the failure carries the first, and its position. -/
def assemble : Nat → List Line → Except Refusal (List Line)
  | _, [] => .ok []
  | n, l :: rest =>
    match Opcode.ofToken l.op with
    | none => .error (.unknownInstruction l n)
    | some _ => do
      let ls ← assemble (n + 1) rest
      .ok (l :: ls)

/-- `bintext(v)`: the minimal unsigned binary form (R13). No rule of the block applies it. -/
def bintext (v : Value) : List Char := numeral 2 v

/-- `unbintext(s)`, the inverse of `bintext` (R13). -/
def unbintext (s : List Char) : Option Value := readNumeral 2 s

/-- `bintext` of an ALU answer. Only a natural number has a binary form (R13); that another answer has none
here is a DESIGN CHOICE (assumption 27). -/
def renderAlu : AluResult → Option (List Char)
  | .value z => if z < 0 then none else some (bintext z.toNat)
  | .nopSentinel => none
  | .unknownOperation _ => none
  | .noMeaning => none

/-- The binary-text variant of an ALU call, `bintext(ALU(op, unbintext(s), unbintext(t)))` (R138). -/
def aluBintext (r : Registry) (op : Token) (s t : List Char) : Option (List Char) := do
  let a ← unbintext s
  let b ← unbintext t
  renderAlu (Sys2Proof.Machine.aluExecute r op (a : Int) (some (b : Int)))

end Sys2Proof.Machine
end

