-- ==== Sys2Proof/Safety.lean ====
section
/-! DEFINITION. The terms statements use: a well-formed state, a state that fetches an instruction, a
run that is over, an ended run that is safe. -/

namespace Sys2Proof.Machine

/-- The invariants the spec gives the state: R5, R11, R21, R22, R29, R30, R80, and the canonical form of
the memory list. -/
structure State.Wf (s : State) : Prop where
  numRegs_pos : 1 ≤ s.params.numRegs
  regs_length : s.regs.length = s.params.numRegs
  regs_value : ∀ v ∈ s.regs, s.params.isValue v = true
  mem_wf : s.mem.wf
  mem_bound : ∀ c ∈ s.mem, c.1 < s.params.memorySize
  mem_value : ∀ c ∈ s.mem, s.params.isValue c.2 = true
  segtab_bound : ∀ d ∈ s.segtab, d.base + d.limit ≤ s.params.memorySize
  program_wf : programWf s.program = true

/-- Every entry of the CallStack is the position after some instruction of the program (R28, R174). -/
def State.ReturnsInProgram (s : State) : Prop :=
  ∀ e ∈ s.stack, 0 < e ∧ e ≤ s.program.length

/-- The run is in progress and the next fetch reads the line `l` (R111). -/
def State.Fetches (s : State) (l : Line) : Prop :=
  s.status = .running ∧ s.program[s.pc]? = some l

/-- The run is in progress and the next fetch reads a line that decodes to `i`. -/
def State.FetchesInstr (s : State) (i : Instr) : Prop :=
  ∃ l, s.Fetches l ∧ decode l = .ok i

/-- The run is over: the status is not Running (R116). -/
def State.Over (s : State) : Prop := s.status ≠ .running

/-- The run has not faulted: the safe states of a claim (R200, D15). -/
def State.Safe (s : State) : Prop := ∀ f, s.status ≠ .faulted f

/-- The step raises `MalformedInstruction` for the fetched line at its position (R208, R211). -/
def State.StepsToMalformed (s : State) (l : Line) : Prop :=
  step s = .next (takeFault (.malformedInstruction l s.pc) (fetch s))

/-- A line of the opcode `o` with one operand token decodes to the instruction of the number `parse` reads
from it, and is rejected at position 1 where `parse` reads none (R83, R85 to R88). -/
def DecodesOne (o : Opcode) (parse : Token → Option Nat) (mk : Nat → Instr) : Prop :=
  ∀ t : Token,
    (∀ n, parse t = some n → decode ⟨o.mnemonic, [t]⟩ = .ok (mk n)) ∧
    (parse t = none → decode ⟨o.mnemonic, [t]⟩ = .error (.badOperand 1))

/-- The same of two operand tokens, a register and a literal, rejected at the first that does not parse. -/
def DecodesTwo (o : Opcode) (mk : Nat → Nat → Instr) : Prop :=
  ∀ t u : Token,
    (∀ r n, parseReg t = some r → parseLit u = some n → decode ⟨o.mnemonic, [t, u]⟩ = .ok (mk r n)) ∧
    (parseReg t = none → decode ⟨o.mnemonic, [t, u]⟩ = .error (.badOperand 1)) ∧
    (∀ r, parseReg t = some r → parseLit u = none →
      decode ⟨o.mnemonic, [t, u]⟩ = .error (.badOperand 2))

/-- The same of three operand tokens, each a register. -/
def DecodesThree (o : Opcode) (mk : Nat → Nat → Nat → Instr) : Prop :=
  ∀ t u v : Token,
    (∀ d a b, parseReg t = some d → parseReg u = some a → parseReg v = some b →
      decode ⟨o.mnemonic, [t, u, v]⟩ = .ok (mk d a b)) ∧
    (parseReg t = none → decode ⟨o.mnemonic, [t, u, v]⟩ = .error (.badOperand 1)) ∧
    (∀ d, parseReg t = some d → parseReg u = none →
      decode ⟨o.mnemonic, [t, u, v]⟩ = .error (.badOperand 2)) ∧
    (∀ d a, parseReg t = some d → parseReg u = some a → parseReg v = none →
      decode ⟨o.mnemonic, [t, u, v]⟩ = .error (.badOperand 3))

/-- A line of the opcode `o`, whose format has one operand read by `parse`, faults as malformed where it
has another operand count or its operand does not parse (R85 to R87). -/
def OneOperandChecked (o : Opcode) (parse : Token → Option Nat) : Prop :=
  ∀ (s : State) (l : Line), s.Fetches l → l.op = o.mnemonic →
    (l.args.length ≠ 1 → s.StepsToMalformed l) ∧
    (∀ tok, l.args = [tok] → parse tok = none → s.StepsToMalformed l)

/-- `k` cycles, fewer where one gives no next state: an executor under FUEL (R117). -/
def runFor : Nat → State → StepOutcome
  | 0, s => .next s
  | k + 1, s =>
    match step s with
    | .next t => runFor k t
    | .fault f => .fault f
    | .refused r => .refused r

end Sys2Proof.Machine
end

