-- ==== Sys2Proof/Certificates/Slice0/Obligations.lean ====
section
/-! DEFINITION. The statements for the provers. Each docstring names the rule of spec/ it formalises. -/

open Sys2Proof Sys2Proof.Machine

/-! ### Encoding -/

/-- R83 to R89: the decoder reads back every well-formed instruction from the encoder's token line,
every register index and literal at every value; and the encoder's text reads back as that line (R81). -/
def Obligations.DecodeReadsBackEncode : Prop :=
  ∀ i : Instr, i.wf = true →
    decode (encode i) = .ok i ∧ lineOfText (lineText (encode i)) = some (encode i)

/-- R81 (D10): every token the tokeniser cuts is a proper token, not empty and without whitespace; the
tokens keep every other character of the line, in order; and a proper line's text reads back as the line. -/
def Obligations.TokeniserCutsProperTokens : Prop :=
  (∀ cs : List Char, (∀ t ∈ tokenise cs, Token.wf t = true) ∧
    (tokenise cs).flatten = cs.filter (fun c => !isSpace c)) ∧
  (∀ l : Line, l.wf = true → lineOfText (lineText l) = some l)

/-- R85, R86 (D11, D12): which tokens are literals and registers, and that a literal is read in base ten:
one more digit on the right makes ten times the number plus the digit. -/
def Obligations.OperandTokensAreDecimal : Prop :=
  (∀ tok : Token, (parseLit tok).isSome = true ↔
    tok ≠ [] ∧ ∀ c ∈ tok, '0'.toNat ≤ c.toNat ∧ c.toNat ≤ '9'.toNat) ∧
  (∀ c : Char, ∀ d < 10, c.toNat = '0'.toNat + d → parseLit [c] = some d) ∧
  (∀ (tok : Token) (c : Char) (n d : Nat), parseLit tok = some n → d < 10 → c.toNat = '0'.toNat + d →
    parseLit (tok ++ [c]) = some (10 * n + d)) ∧
  (∀ tok : Token, parseReg ('R' :: tok) = parseLit tok) ∧
  (∀ (tok : Token) (n : Nat), parseReg tok = some n → ∃ ds, tok = 'R' :: ds)

/-- R87, R88 (D13): a recognized opcode's line with another operand count than its format's is rejected
for its count, whatever the tokens are; with that count, it is never rejected for it. -/
def Obligations.OperandCountIsCheckedFirst : Prop :=
  ∀ (l : Line) (o : Opcode), Opcode.ofToken l.op = some o →
    (l.args.length ≠ o.format.operands →
      decode l = .error (.operandCount o.format.operands l.args.length)) ∧
    (l.args.length = o.format.operands → ∀ m n, decode l ≠ .error (.operandCount m n))

/-- R83 to R90, R96 (D11 to D14): no line falls through to another row, and no operand token is misread. What
a proper line decodes to is a well-formed instruction whose own line has the same token 0 and as many operands;
the catch-all row takes exactly the lines whose token 0 is none of the eleven mnemonics; and every line of each
mnemonic with its format's operand count decodes to that mnemonic's instruction with the numbers that `reg` and
`lit` read from its tokens in order, or is rejected at the first token from the left that does not parse. -/
def Obligations.DecodeKeepsTheRow : Prop :=
  (∀ (l : Line) (i : Instr), l.wf = true → decode l = .ok i →
    i.wf = true ∧ (encode i).op = l.op ∧ (encode i).args.length = l.args.length ∧
    ((∃ op args, i = .unrecognized op args) ↔ ∀ o : Opcode, o.mnemonic ≠ l.op)) ∧
  DecodesTwo .load .load ∧ DecodesThree .add .add ∧ DecodesThree .sub .sub ∧ DecodesTwo .store .store ∧
  DecodesOne .input parseReg .input ∧ DecodesOne .output parseReg .output ∧
  DecodesOne .jump parseLit .jump ∧ DecodesOne .jumpz parseLit .jumpz ∧ DecodesOne .call parseLit .call ∧
  decode ⟨Opcode.ret.mnemonic, []⟩ = .ok .ret ∧ decode ⟨Opcode.halt.mnemonic, []⟩ = .ok .halt

/-- R83, R85, R86, R89, R191: lines written out from the spec's encodings decode to the instruction they
stand for. That lower-case `halt` is an unrecognized opcode is the spec's decision D10 (R84; assumption 15). -/
def Obligations.SampleLinesDecode : Prop :=
  decode ⟨['L', 'O', 'A', 'D'], [['R', '1'], ['1', '0']]⟩ = .ok (.load 1 10) ∧
  decode ⟨['A', 'D', 'D'], [['R', '3'], ['R', '1'], ['R', '2']]⟩ = .ok (.add 3 1 2) ∧
  decode ⟨['S', 'T', 'O', 'R', 'E'], [['R', '3'], ['1', '0', '0']]⟩ = .ok (.store 3 100) ∧
  decode ⟨['J', 'U', 'M', 'P', 'Z'], [['4']]⟩ = .ok (.jumpz 4) ∧
  decode ⟨['R', 'E', 'T'], []⟩ = .ok .ret ∧
  decode ⟨['h', 'a', 'l', 't'], []⟩ = .ok (.unrecognized ['h', 'a', 'l', 't'] [])

/-- R13 (digit order: D21), R138: `bintext` is the minimal unsigned binary form and `unbintext` its inverse;
and the binary-text variant of an ALU call is the same function seen through the two. That a negative result
has no binary text is the model's choice (assumption 27). -/
def Obligations.BinaryTextReadsBack : Prop :=
  (∀ v : Value, unbintext (bintext v) = some v ∧ (∀ c ∈ bintext v, c = '0' ∨ c = '1') ∧
    (v = 0 → bintext v = ['0']) ∧ (0 < v → (bintext v).head? = some '1')) ∧
  (∀ (r : Registry) (op : Token) (a b : Value) (z : Int), aluExecute r op a (some (b : Int)) = .value z →
    (∀ v : Nat, (v : Int) = z → aluBintext r op (bintext a) (bintext b) = some (bintext v)) ∧
    (z < 0 → aluBintext r op (bintext a) (bintext b) = none))

/-! ### Reset, launch and the host port -/

/-- R5, R36 to R40: the state after reset. MODEL AND SPEC CHOICES: the three parameters' values (R5, D1, D27;
assumption 3), the zero registers and cells (D4, D5; assumptions 5, 6), `pc`, `ir` and status (D7, D8;
assumption 17), the empty table, registry and program (assumptions 4, 7, 8), and the empty I/O trace and report
list, to which no event has been added (R9, R33, R160; assumption 9). -/
def Obligations.ResetLaunchesAtPositionZero : Prop :=
  State.reset.params = ⟨8, 1024, none⟩ ∧ State.reset.regs = List.replicate 8 0 ∧ State.reset.pc = 0 ∧
  State.reset.ir = .none ∧ State.reset.stack = [] ∧ State.reset.status = .running ∧
  (∀ a, State.reset.mem.get a = 0) ∧ State.reset.segtab = [] ∧ State.reset.registry = [] ∧
  State.reset.program = [] ∧ State.reset.ioTrace = [] ∧ State.reset.reports = []

/-- The invariants of `StepKeepsWellFormed` and `StepKeepsReturnPositions` hold at reset. -/
def Obligations.ResetMeetsTheInvariants : Prop :=
  State.reset.Wf ∧ State.reset.ReturnsInProgram

/-- R231, R232, R55 (D6): a launch whose segment table breaks base + limit <= MEMORY_SIZE is refused; one with
a good table, N at least 1, a MEM_INIT and a REG_INIT of their shape and a program of proper token lists is
accepted; every launch that is accepted gives the launch state of its parameters, which meets the invariants.
That a launch of another shape is refused is the model's choice (assumption 29). -/
def Obligations.ProcessStartChecksTheConfiguration : Prop :=
  ∀ (p : Params) (segtab : List SegDescriptor) (mem : Memory) (ops : Registry) (rs : List Value)
    (program : List Line) (inputs : List Int),
    ((∃ d ∈ segtab, p.memorySize < d.base + d.limit) →
      processStart p segtab mem ops rs program inputs = .error .badSegmentTable) ∧
    ((∀ d ∈ segtab, d.base + d.limit ≤ p.memorySize) →
      (p.wf = true → memInitWf p mem = true → regInitWf p rs = true → programWf program = true →
        processStart p segtab mem ops rs program inputs =
          .ok (State.launch p segtab mem ops rs program inputs)) ∧
      (p.wf = false ∨ memInitWf p mem = false ∨ regInitWf p rs = false ∨ programWf program = false →
        processStart p segtab mem ops rs program inputs = .error .badLaunch)) ∧
    (∀ s, processStart p segtab mem ops rs program inputs = .ok s →
      s = State.launch p segtab mem ops rs program inputs ∧ s.Wf ∧ s.ReturnsInProgram)

/-- R232, R35, R39, R67: a CPU instance constructed over a program has a fresh `pc`, `ir`, `stack` and
`status`, the given registers and registry, and finds MemorySpace and SegmentTable as they were; it meets
the invariants where the state before did. That construction is refused where REG_INIT is not N Values or an
instruction is no list of proper tokens is the model's choice (assumptions 20, 29). -/
def Obligations.ConstructionKeepsMemory : Prop :=
  ∀ (s : State) (program : List Line) (rs : List Value) (ops : Registry),
    runInProgress s = false →
    (regInitWf s.params rs = true → programWf program = true →
      ∃ t, hostStep (.construct program rs ops) s = .ok .done t ∧
        t.pc = 0 ∧ t.ir = .none ∧ t.stack = [] ∧ t.status = .running ∧ t.regs = rs ∧ t.registry = ops ∧
        t.program = program ∧ t.mem = s.mem ∧ t.segtab = s.segtab ∧ t.params = s.params ∧
        (s.Wf → t.Wf) ∧ t.ReturnsInProgram) ∧
    (regInitWf s.params rs = false ∨ programWf program = false →
      hostStep (.construct program rs ops) s = .refused .badLaunch)

/-- R8, R68 (D20), R217 (D30): during a run every host call is refused. Outside one, a read answers the
component operation's value and changes nothing, a write of a Value does what the component operation
does, and a failure is rejected with the component operation's fault. R115 (D15), R116: outside a run the whole
state can be inspected, after a halt and after a fault alike (assumption 31). R135: a call of the ALU's HALT
answers the sentinel. MODEL'S CHOICES: the launch state (Running, `ir` empty) is before the run, although the
glossary has a run begin at construction, so there every clause about a call outside a run applies (assumption
19); and a write of a number that is no Value is refused (assumption 28). -/
def Obligations.HostPortCallsTheComponents : Prop :=
  ∀ s : State,
    (runInProgress s = true → ∀ op, hostStep op s = .refused .runInProgress) ∧
    (s.Over → runInProgress s = false) ∧
    (runInProgress s = false →
      hostStep .inspect s = .ok (.state s) s ∧
      (∀ i v, readReg i s = .ok v → hostStep (.readReg i) s = .ok (.value v) s) ∧
      (∀ i f, readReg i s = .error f → hostStep (.readReg i) s = .rejected f) ∧
      (∀ a v, memRead a s = .ok v → hostStep (.memRead a) s = .ok (.value v) s) ∧
      (∀ a f, memRead a s = .error f → hostStep (.memRead a) s = .rejected f) ∧
      (∀ g o v, readSegmented g o s = .ok v → hostStep (.readSegmented g o) s = .ok (.value v) s) ∧
      (∀ g o f, readSegmented g o s = .error f → hostStep (.readSegmented g o) s = .rejected f) ∧
      (∀ v, s.params.isValue v = true →
        (∀ i t, writeReg i v s = .ok t → hostStep (.writeReg i v) s = .ok .done t) ∧
        (∀ i f, writeReg i v s = .error f → hostStep (.writeReg i v) s = .rejected f) ∧
        (∀ a t, memWrite a v s = .ok t → hostStep (.memWrite a v) s = .ok .done t) ∧
        (∀ a f, memWrite a v s = .error f → hostStep (.memWrite a v) s = .rejected f) ∧
        (∀ g o t, writeSegmented g o v s = .ok t → hostStep (.writeSegmented g o v) s = .ok .done t) ∧
        (∀ g o f, writeSegmented g o v s = .error f →
          hostStep (.writeSegmented g o v) s = .rejected f)) ∧
      (∀ v, s.params.isValue v = false →
        (∀ i, hostStep (.writeReg i v) s = .refused (.notAValue v)) ∧
        (∀ a, hostStep (.memWrite a v) s = .refused (.notAValue v)) ∧
        (∀ g o, hostStep (.writeSegmented g o v) s = .refused (.notAValue v))) ∧
      (∀ op a b z, aluExecute s.registry op a b = .value z →
        hostStep (.aluExecute op a b) s = .ok (.integer z) s) ∧
      (∀ op a b, aluExecute s.registry op a b = .nopSentinel →
        hostStep (.aluExecute op a b) s = .ok .nopSentinel s) ∧
      (s.registry.find aluHalt = none → ∀ a b,
        hostStep (.aluExecute aluHalt a b) s = .ok .nopSentinel s) ∧
      (∀ op a b n, aluExecute s.registry op a b = .unknownOperation n →
        hostStep (.aluExecute op a b) s = .rejected (.unknownOperation n)))

/-- R95, R207: the assembler passes exactly the programs whose every opcode is in the whitelist, unchanged,
and fails on any other with UnknownInstruction; and a run of a program it passed reports no unrecognized
opcode. MODEL'S CHOICE, which R95, R201 and R207 do not say: the failure carries the first line whose opcode is
not in the whitelist, and its position (assumption 32). -/
def Obligations.AssembledProgramsReportNoUnrecognized : Prop :=
  (∀ p q : List Line, assemble 0 p = .ok q ↔
    q = p ∧ ∀ l ∈ p, ∃ o : Opcode, o.mnemonic = l.op) ∧
  (∀ (p post : List Line) (l : Line), (∀ m ∈ p, ∃ o : Opcode, o.mnemonic = m.op) →
    (∀ o : Opcode, o.mnemonic ≠ l.op) →
    assemble 0 (p ++ l :: post) = .error (.unknownInstruction l p.length)) ∧
  (∀ (p q : List Line), assemble 0 p = .ok q → ∀ (k : Nat) (s t : State), s.program = q →
    runFor k s = .next t → ∀ l, Report.unrecognized l ∈ t.reports → Report.unrecognized l ∈ s.reports)

/-- R93 (D10, D25; assumption 15): the transcriber passes exactly the texts whose every line has a token, no
mnemonic that is one of the eleven after case folding only, a token 0 of the shape below, and operands in the
syntax of R85 and R86; and the program is one instruction a text line, in order, each the line's tokens.
MODEL'S CHOICE, which R93 does not say: token 0 must be a letter followed by letters and digits (assumption
30). -/
def Obligations.TranscriberGivesOneInstructionALine : Prop :=
  ∀ (texts : List (List Char)) (p : List Line), transcribe 0 texts = .ok p ↔
    p.map some = texts.map lineOfText ∧
    ∀ l ∈ p, ((∃ o : Opcode, o.mnemonic = l.op) ∨ ∀ o : Opcode, o.mnemonic ≠ l.op.map Char.toUpper) ∧
      (∃ c cs, l.op = c :: cs ∧ c.isAlpha = true ∧ ∀ d ∈ cs, d.isAlphanum = true) ∧
      ∀ tok ∈ l.args, ∃ n, parseReg tok = some n ∨ parseLit tok = some n

/-! ### The cycle -/

/-- R111: what fetch does, within the program's bounds and outside them; it writes `ir` and `pc` only, and
an empty program's first fetch yields END. -/
def Obligations.FetchReadsTheProgram : Prop :=
  ∀ s : State,
    (s.pc < s.program.length → ∃ l, s.program[s.pc]? = some l ∧
      fetch s = { s with ir := .line l, pc := s.pc + 1 }) ∧
    (s.program.length ≤ s.pc → fetch s = { s with ir := .endMarker }) ∧
    (s.program = [] → (fetch s).ir = .endMarker)

/-- R112, R114, R115: when the line at `pc` decodes to the instruction i, the step is exec of i at the
state fetch leaves, followed by the register report where i halted the run. That the report is in the same
step is assumption 21. -/
def Obligations.StepRunsTheDecodedInstruction : Prop :=
  ∀ (s : State) (l : Line) (i : Instr), s.Fetches l → decode l = .ok i →
    ∃ t, exec i { s with ir := .line l, pc := s.pc + 1 } = .next t ∧
      ((∃ r, t.status = .halted r) →
        step s = .next { t with reports := t.reports ++ [.registers t.regs] }) ∧
      ((∀ r, t.status ≠ .halted r) → step s = .next t)

/-- The model's loading convention (assumptions 4, 11): after `withFetchWord` the next fetch reads the
word's line; the status is Running; of the program, every other position below its length keeps its line, and
it grows only as far as position `pc` needs; nothing else changes. -/
def Obligations.WithFetchWordPlacesTheLine : Prop :=
  ∀ (s : State) (nbits w : Nat) (i : Instr), decodeTableWord nbits w = some i →
    (s.withFetchWord nbits w).FetchesInstr i ∧
    s.withFetchWord nbits w =
      { s with program := (s.withFetchWord nbits w).program, status := .running } ∧
    (∀ j, j ≠ s.pc → j < s.program.length → (s.withFetchWord nbits w).program[j]? = s.program[j]?) ∧
    (s.withFetchWord nbits w).program.length = max s.program.length (s.pc + 1)

/-- R192: with `pc` outside the program the cycle puts END in `ir` and halts with EndOfProgram, followed
by the register report; `pc` and everything else is unchanged. No line of the program is END. That the report
is in the same step is assumption 21. -/
def Obligations.EndOfProgramHalts : Prop :=
  ∀ s : State, s.status = .running →
    (s.program.length ≤ s.pc →
      step s = .next { s with
        ir := .endMarker
        status := .halted .endOfProgram
        reports := s.reports ++ [.registers s.regs] }) ∧
    (s.pc < s.program.length → (fetch s).ir ≠ .endMarker)

/-- R32, R239: once the status is not Running nothing changes again. That the step then answers the same
state is the model's choice (assumption 2). -/
def Obligations.EndedRunStaysAsItIs : Prop :=
  ∀ (s : State) (k : Nat), s.Over → runFor k s = .next s

/-- R113, R15, R211: while a run is in progress every step answers a next state; the faults of the spec are
next states too (assumption 1), and nothing is refused. MODEL'S CHOICE: the spec gives no step once the status
is not Running, and there the model's step answers a next state as well (assumption 2). That an INPUT always
gets its integer is D26 (assumption 9). -/
def Obligations.EveryStepAnswersNext : Prop :=
  ∀ s : State, ∃ t, step s = .next t

/-- R113: a cycle halts exactly in the three cases named, each with its reason; an unrecognized opcode
signals continue. -/
def Obligations.OnlyThreeCasesHalt : Prop :=
  ∀ s t : State, s.status = .running → step s = .next t →
    (t.status = .halted .endOfProgram ↔ s.program.length ≤ s.pc) ∧
    (t.status = .halted .haltInstruction ↔ s.FetchesInstr .halt) ∧
    (t.status = .halted .returnOnEmptyStack ↔ s.FetchesInstr .ret ∧ s.stack = []) ∧
    (∀ op args, s.FetchesInstr (.unrecognized op args) → t.status = .running)

/-- R119: where `pc` is after each cycle of an instruction fetched from position p. -/
def Obligations.PcAfterEachInstruction : Prop :=
  ∀ (s t : State) (i : Instr), s.FetchesInstr i → step s = .next t →
    (∀ a, i = .jump a ∨ i = .call a → t.pc = a) ∧
    (∀ a, i = .jumpz a → t.pc = if s.regs.getD 0 0 = 0 then a else s.pc + 1) ∧
    (i = .ret → ∀ rest v, s.stack = rest ++ [v] → t.pc = v) ∧
    (i = .ret → s.stack = [] → t.pc = s.pc + 1) ∧
    ((∀ a, i ≠ .jump a) → (∀ a, i ≠ .call a) → (∀ a, i ≠ .jumpz a) → i ≠ .ret → t.pc = s.pc + 1)

/-! ### Faults -/

/-- R15, R211 (D15): what taking a fault writes, and that it writes nothing else. -/
def Obligations.TakingAFaultEndsTheRun : Prop :=
  ∀ (f : Fault) (s : State),
    takeFault f s = { s with
      status := .faulted f
      reports := s.reports ++ [.fault f s.ir (s.pc - 1)] }

/-- R208, R211 (D13, D15): a fetched line that is no instruction raises MalformedInstruction with the line
and its position, and the cycle has written nothing but `ir` and `pc`. -/
def Obligations.MalformedLineFaults : Prop :=
  ∀ (s : State) (l : Line) (e : DecodeError), s.Fetches l → decode l = .error e →
    step s = .next { s with
      ir := .line l
      pc := s.pc + 1
      status := .faulted (.malformedInstruction l s.pc)
      reports := s.reports ++ [.fault (.malformedInstruction l s.pc) (.line l) s.pc] }

/-- R211, R213 (D15): faults are precise. A cycle that faults has an instruction, leaves `ir` at it and
`pc` after it, reports the fault once with them, and has written no register, no memory cell and no stack
entry; only INPUT has consumed anything. -/
def Obligations.FaultsArePrecise : Prop :=
  ∀ (s t : State) (f : Fault), s.status = .running → step s = .next t → t.status = .faulted f →
    ∃ l, s.Fetches l ∧ t.ir = .line l ∧ t.pc = s.pc + 1 ∧
      t.reports = s.reports ++ [.fault f (.line l) s.pc] ∧
      t.regs = s.regs ∧ t.mem = s.mem ∧ t.stack = s.stack ∧
      ((∀ rd, ¬ s.FetchesInstr (.input rd)) →
        t.inputs = s.inputs ∧ t.draws = s.draws ∧ t.ioTrace = s.ioTrace)

/-- R202, R203, R206, R204, R205: in no run of whole cycles does a segment fault or an unknown ALU name
appear as the fault of the run: no instruction makes a segmented access or names an operation. -/
def Obligations.HostOnlyFaultsNeverEndARun : Prop :=
  ∀ (k : Nat) (s t : State), s.Safe → runFor k s = .next t →
    (∀ g, t.status ≠ .faulted (.invalidSegment g)) ∧
    (∀ g o, t.status ≠ .faulted (.invalidOffset g o)) ∧
    (∀ n, t.status ≠ .faulted (.unknownOperation n))

/-! ### Registers, the result check and the ALU -/

/-- R23: register access. A read or a write of an index in [0, N) has the register's value or writes it
and no other; outside it fails with InvalidRegister, which aborts the run when an instruction makes the
access and rejects the one call when the host makes it. -/
def Obligations.RegisterAccessChecksTheIndex : Prop :=
  ∀ (s : State) (i : Nat) (v : Value), s.Wf →
    (i < s.params.numRegs →
      (∃ u, s.regs[i]? = some u ∧ readReg i s = .ok u) ∧
      ∃ t, writeReg i v s = .ok t ∧ t = { s with regs := t.regs } ∧ readReg i t = .ok v ∧
        ∀ j, j ≠ i → t.regs[j]? = s.regs[j]?) ∧
    (s.params.numRegs ≤ i →
      readReg i s = .error (.invalidRegister i) ∧ writeReg i v s = .error (.invalidRegister i) ∧
      exec (.output i) s = .next (takeFault (.invalidRegister i) s) ∧
      (s.params.isValue v = true → s.registry.find aluLoad = none →
        exec (.load i v) s = .next (takeFault (.invalidRegister i) s)) ∧
      (runInProgress s = false → hostStep (.readReg i) s = .rejected (.invalidRegister i) ∧
        (s.params.isValue v = true → hostStep (.writeReg i v) s = .rejected (.invalidRegister i))))

/-- R12, R139, R209, R210, R213 (D1, D2, D14): what a register write of a computed integer does. A Value is
written to the register and nothing else; a negative integer and one too large for VALUE_BITS fault, before
the destination index is looked at; then the index is checked. -/
def Obligations.ResultsAreCheckedBeforeTheWrite : Prop :=
  ∀ (s : State) (d : Nat) (z : Int),
    (z < 0 → writeBack d z s = .next (takeFault (.negativeValue z) s)) ∧
    (∀ w, s.params.valueBits = some w → (2 : Int) ^ w ≤ z →
      writeBack d z s = .next (takeFault (.valueOverflow z) s)) ∧
    (∀ v : Nat, (v : Int) = z → s.params.isValue v = true →
      (s.params.numRegs ≤ d → writeBack d z s = .next (takeFault (.invalidRegister d) s)) ∧
      (d < s.params.numRegs → writeBack d z s = .next { s with regs := s.regs.set d v }))

/-- R132, R133, R134: the built-in ADD, SUB and LOAD are exact on all integers, and LOAD ignores its second
operand. -/
def Obligations.AluBuiltinsAreExact : Prop :=
  ∀ (r : Registry) (a b : Int),
    (r.find aluAdd = none → aluExecute r aluAdd a (some b) = .value (a + b)) ∧
    (r.find aluSub = none → aluExecute r aluSub a (some b) = .value (a - b)) ∧
    (r.find aluLoad = none → ∀ c, aluExecute r aluLoad a c = .value a)

/-- R135, R136, R144 (D23): the built-in HALT answers the sentinel whatever its operands are; a name that is
neither registered nor built in fails with UnknownOperation; the host's call of the built-in ADD or SUB
without a second operand is refused. -/
def Obligations.AluOtherNames : Prop :=
  ∀ (s : State) (a : Int) (b : Option Int),
    (s.registry.find aluHalt = none → aluExecute s.registry aluHalt a b = .nopSentinel) ∧
    (∀ op, s.registry.find op = none → op ≠ aluAdd → op ≠ aluSub → op ≠ aluLoad → op ≠ aluHalt →
      aluExecute s.registry op a b = .unknownOperation op) ∧
    (runInProgress s = false → ∀ op, op = aluAdd ∨ op = aluSub → s.registry.find op = none →
      hostStep (.aluExecute op a none) s = .refused (.missingOperand op))

/-- R137: define_operation never fails outside a run, inserts or overwrites the entry of its name and keeps
every other; no cycle changes the registry (R31, D22). During a run the call is refused (R68, D20); what counts
as a run in progress is the model's choice (assumptions 19, 22). -/
def Obligations.DefineOperationInsertsOrOverwrites : Prop :=
  ∀ (s : State) (name : Token) (fn : FnHandle),
    (runInProgress s = false → ∃ t, hostStep (.defineOperation name fn) s = .ok .done t ∧
      t.registry.find name = some fn ∧ (∀ n, n ≠ name → t.registry.find n = s.registry.find n) ∧
      t = { s with registry := t.registry }) ∧
    (runInProgress s = true → hostStep (.defineOperation name fn) s = .refused .runInProgress) ∧
    (∀ t, step s = .next t → t.registry = s.registry)

/-- R131, R140 to R143 (D22): a custom operation under a name answers its function's value unmodified, in
place of the built-in; under LOAD, ADD or SUB that value is what the instruction checks and writes. It holds
for whatever function the handle stands for (assumption 8). -/
def Obligations.CustomOperationsShadowBuiltins : Prop :=
  ∀ (s : State) (fn : FnHandle) (rd rs1 rs2 imm : Nat) (a b : Value),
    (∀ op x y, s.registry.find op = some fn →
      aluExecute s.registry op x y = .value (Config.customOp fn x y)) ∧
    (s.registry.find aluLoad = some fn →
      exec (.load rd imm) s = writeBack rd (Config.customOp fn imm none) s) ∧
    (readReg rs1 s = .ok a → readReg rs2 s = .ok b →
      (s.registry.find aluAdd = some fn →
        exec (.add rd rs1 rs2) s = writeBack rd (Config.customOp fn a (some (b : Int))) s) ∧
      (s.registry.find aluSub = some fn →
        exec (.sub rd rs1 rs2) s = writeBack rd (Config.customOp fn a (some (b : Int))) s))

/-- R143: a custom operation under any name but LOAD, ADD and SUB changes no run: the run over the larger
registry is the same run, step for step. -/
def Obligations.OtherCustomOperationsAreUnreachable : Prop :=
  ∀ (k : Nat) (s t : State) (name : Token) (fn : FnHandle),
    name ≠ aluLoad → name ≠ aluAdd → name ≠ aluSub → runFor k s = .next t →
    runFor k { s with registry := s.registry.define name fn } =
      .next { t with registry := t.registry.define name fn }

/-! ### LOAD, ADD, SUB -/

/-- R140: LOAD writes its immediate to the destination register and nothing else; the immediate is checked
against VALUE_BITS (D1) before the index (D14). -/
def Obligations.LoadWritesTheImmediate : Prop :=
  ∀ (s : State) (rd imm : Nat), s.registry.find aluLoad = none →
    (rd < s.params.numRegs → s.params.isValue imm = true →
      exec (.load rd imm) s = .next { s with regs := s.regs.set rd imm }) ∧
    (s.params.isValue imm = false →
      exec (.load rd imm) s = .next (takeFault (.valueOverflow imm) s)) ∧
    (s.params.numRegs ≤ rd → s.params.isValue imm = true →
      exec (.load rd imm) s = .next (takeFault (.invalidRegister rd) s))

/-- R141: ADD writes the exact sum of its sources, both read before the write, to the destination register
and nothing else. Over unbounded values the sum is always a Value; a sum that a finite VALUE_BITS does not
hold faults (D1), then a destination out of range does (D14). -/
def Obligations.AddWritesTheSum : Prop :=
  ∀ (s : State) (rd rs1 rs2 : Nat) (a b : Value), s.registry.find aluAdd = none →
    rs1 < s.params.numRegs → rs2 < s.params.numRegs → s.regs[rs1]? = some a → s.regs[rs2]? = some b →
    (rd < s.params.numRegs → s.params.isValue (a + b) = true →
      exec (.add rd rs1 rs2) s = .next { s with regs := s.regs.set rd (a + b) }) ∧
    (s.params.valueBits = none → s.params.isValue (a + b) = true) ∧
    (s.params.isValue (a + b) = false →
      exec (.add rd rs1 rs2) s = .next (takeFault (.valueOverflow ((a : Int) + (b : Int))) s)) ∧
    (s.params.numRegs ≤ rd → s.params.isValue (a + b) = true →
      exec (.add rd rs1 rs2) s = .next (takeFault (.invalidRegister rd) s))

/-- R142, R139 (D2): SUB writes the exact difference of its sources where it is not negative, and nothing
else; where it is negative it faults with NegativeValue and writes nothing. -/
def Obligations.SubWritesTheDifferenceOrFaults : Prop :=
  ∀ (s : State) (rd rs1 rs2 : Nat) (a b : Value), s.registry.find aluSub = none →
    rs1 < s.params.numRegs → rs2 < s.params.numRegs → s.regs[rs1]? = some a → s.regs[rs2]? = some b →
    s.params.isValue a = true →
    (rd < s.params.numRegs → b ≤ a →
      exec (.sub rd rs1 rs2) s = .next { s with regs := s.regs.set rd (a - b) }) ∧
    (a < b → exec (.sub rd rs1 rs2) s =
      .next (takeFault (.negativeValue ((a : Int) - (b : Int))) s)) ∧
    (s.params.numRegs ≤ rd → b ≤ a →
      exec (.sub rd rs1 rs2) s = .next (takeFault (.invalidRegister rd) s))

/-- R213 (D14): ADD and SUB report the first source register out of range, then the second, before anything
is computed. -/
def Obligations.SourceRegistersAreCheckedInOrder : Prop :=
  ∀ (s : State) (rd rs1 rs2 : Nat),
    (s.params.numRegs ≤ rs1 →
      exec (.add rd rs1 rs2) s = .next (takeFault (.invalidRegister rs1) s) ∧
      exec (.sub rd rs1 rs2) s = .next (takeFault (.invalidRegister rs1) s)) ∧
    (rs1 < s.params.numRegs → s.params.numRegs ≤ rs2 →
      exec (.add rd rs1 rs2) s = .next (takeFault (.invalidRegister rs2) s) ∧
      exec (.sub rd rs1 rs2) s = .next (takeFault (.invalidRegister rs2) s))

/-! ### Memory and STORE -/

/-- R53: a flat write in range writes the whole value to the one cell and leaves every other cell and the
rest of the state; out of range it fails and there is no changed state. -/
def Obligations.FlatWriteChangesOneCell : Prop :=
  ∀ (s : State) (a : Nat) (v : Value), s.mem.wf →
    (a < s.params.memorySize → ∃ t, memWrite a v s = .ok t ∧ t = { s with mem := t.mem } ∧
      memRead a t = .ok v ∧ ∀ b, b ≠ a → memRead b t = memRead b s) ∧
    (s.params.memorySize ≤ a → memWrite a v s = .error (.invalidAddress a) ∧
      memRead a s = .error (.invalidAddress a))

/-- R57, R58: the segmented operations translate the address and delegate to the flat operation. -/
def Obligations.SegmentedAccessDelegates : Prop :=
  ∀ (s : State) (seg o : Nat) (v : Value),
    (∀ a, segTranslate seg o s = .ok a →
      readSegmented seg o s = memRead a s ∧ writeSegmented seg o v s = memWrite a v s) ∧
    (∀ f, segTranslate seg o s = .error f →
      readSegmented seg o s = .error f ∧ writeSegmented seg o v s = .error f)

/-- R56, R59: translation checks the segment number, then the offset against the limit, then adds the
base; under the configuration invariant a translated access never leaves MemorySpace. -/
def Obligations.SegmentTranslationChecks : Prop :=
  ∀ (s : State) (seg o : Nat) (v : Value),
    (s.segtab.length ≤ seg → segTranslate seg o s = .error (.invalidSegment seg)) ∧
    (∀ d, s.segtab[seg]? = some d →
      (d.limit ≤ o → segTranslate seg o s = .error (.invalidOffset seg o)) ∧
      (o < d.limit → segTranslate seg o s = .ok (d.base + o) ∧
        (s.Wf → readSegmented seg o s = .ok (s.mem.get (d.base + o)) ∧
          ∃ t, writeSegmented seg o v s = .ok t ∧ memWrite (d.base + o) v s = .ok t)))

/-- The model's memory list (assumption 10): two canonical lists that read alike at every address are
equal, so equal memories are equal data. -/
def Obligations.CanonicalMemoriesAreEqualData : Prop :=
  ∀ m n : Memory, m.wf → n.wf → (∀ a, m.get a = n.get a) → m = n

/-- R150: STORE writes the register's whole value to the cell at its address literal and nothing else; the
register is checked before the address (D14), and on a fault no cell is written. -/
def Obligations.StoreWritesOneCell : Prop :=
  ∀ (s : State) (rs addr : Nat) (v : Value),
    (rs < s.params.numRegs → s.regs[rs]? = some v → addr < s.params.memorySize →
      ∃ t, exec (.store rs addr) s = .next t ∧ t = { s with mem := t.mem } ∧
        (s.mem.wf → ∀ b, t.mem.get b = if b = addr then v else s.mem.get b)) ∧
    (s.params.numRegs ≤ rs →
      exec (.store rs addr) s = .next (takeFault (.invalidRegister rs) s)) ∧
    (rs < s.params.numRegs → s.params.memorySize ≤ addr →
      exec (.store rs addr) s = .next (takeFault (.invalidAddress addr) s))

/-- R60, R66 (D17): only STORE changes a cell, and the cell it changes is the one at its address literal,
to the register's value. -/
def Obligations.OnlyStoreChangesMemory : Prop :=
  ∀ (s t : State) (a : Nat), s.mem.wf → step s = .next t → t.mem.get a ≠ s.mem.get a →
    ∃ rs, s.FetchesInstr (.store rs a) ∧ t.mem.get a = s.regs.getD rs 0

/-- R151: a program cannot observe memory. Runs from two states that differ in memory only go through
states that differ in memory only: same registers, `pc`, stack, status, traces and reports. -/
def Obligations.ProgramsCannotObserveMemory : Prop :=
  ∀ (k : Nat) (s t : State) (m : Memory), runFor k s = .next t →
    ∃ m', runFor k { s with mem := m } = .next { t with mem := m' }

/-! ### INPUT and OUTPUT -/

/-- R160, R161 (D3, D14, D26): INPUT takes the device's next integer z, logs it, and then checks and writes
it; where that faults the integer is consumed. Past the end of the known inputs z is a free value
(assumption 9), and the statement holds for every value of the counter it comes from. -/
def Obligations.InputTakesOneInteger : Prop :=
  ∀ (s : State) (rd : Nat),
    (∀ z rest, s.inputs = z :: rest →
      (∀ v : Nat, (v : Int) = z → s.params.isValue v = true → rd < s.params.numRegs →
        exec (.input rd) s = .next { s with
          regs := s.regs.set rd v, inputs := rest, ioTrace := s.ioTrace ++ [.input z] }) ∧
      (z < 0 → exec (.input rd) s = .next (takeFault (.negativeValue z)
        { s with inputs := rest, ioTrace := s.ioTrace ++ [.input z] })) ∧
      (∀ v : Nat, (v : Int) = z → s.params.isValue v = true → s.params.numRegs ≤ rd →
        exec (.input rd) s = .next (takeFault (.invalidRegister rd)
          { s with inputs := rest, ioTrace := s.ioTrace ++ [.input z] })) ∧
      exec (.input rd) s =
        writeBack rd z { s with inputs := rest, ioTrace := s.ioTrace ++ [.input z] }) ∧
    (s.inputs = [] →
      exec (.input rd) s = writeBack rd (Config.ioDraw s.draws)
        { s with draws := s.draws + 1, ioTrace := s.ioTrace ++ [.input (Config.ioDraw s.draws)] })

/-- R162: OUTPUT delivers the register's value, the only effect being the event; an index out of range
faults and delivers nothing; a wrong operand count or an operand that is no register is malformed. -/
def Obligations.OutputDeliversTheValue : Prop :=
  (∀ (s : State) (rs : Nat) (v : Value),
    (rs < s.params.numRegs → s.regs[rs]? = some v →
      exec (.output rs) s = .next { s with ioTrace := s.ioTrace ++ [.output v] }) ∧
    (s.params.numRegs ≤ rs →
      exec (.output rs) s = .next (takeFault (.invalidRegister rs) s))) ∧
  OneOperandChecked .output parseReg

/-- R33, R160: the traces only grow and the inputs are only consumed from the front, in every run. -/
def Obligations.TracesOnlyGrow : Prop :=
  ∀ (k : Nat) (s t : State), runFor k s = .next t →
    (∃ es, t.ioTrace = s.ioTrace ++ es) ∧ (∃ rs, t.reports = s.reports ++ rs) ∧
    (∃ zs, s.inputs = zs ++ t.inputs)

/-! ### Control transfer -/

/-- R172: JUMP writes `pc`, with any target, and nothing else; a wrong operand count or an operand that is
no literal is malformed, and it has no other fault. -/
def Obligations.JumpWritesPcOnly : Prop :=
  (∀ (s : State) (addr : Nat), exec (.jump addr) s = .next { s with pc := addr }) ∧
  OneOperandChecked .jump parseLit

/-- R173: JUMPZ writes `pc` if and only if register 0 equals zero, and nothing else ever; its operand is
checked whether or not register 0 is zero (D14). -/
def Obligations.JumpzTestsRegisterZero : Prop :=
  (∀ (s : State) (addr : Nat) (v : Value), s.regs[0]? = some v →
    (v = 0 → exec (.jumpz addr) s = .next { s with pc := addr }) ∧
    (v ≠ 0 → exec (.jumpz addr) s = .next s)) ∧
  OneOperandChecked .jumpz parseLit

/-- R174: CALL pushes the current `pc`, the position after it, and writes `pc`, with any target and at any
stack depth, and nothing else; a malformed CALL pushes nothing. -/
def Obligations.CallPushesTheReturnPosition : Prop :=
  (∀ (s : State) (addr : Nat),
    exec (.call addr) s = .next { s with pc := addr, stack := s.stack ++ [s.pc] }) ∧
  (∀ (s : State) (l : Line) (addr : Nat), s.Fetches l → decode l = .ok (.call addr) →
    step s = .next { s with ir := .line l, pc := addr, stack := s.stack ++ [s.pc + 1] }) ∧
  OneOperandChecked .call parseLit

/-- R175: RET on an empty stack halts gracefully with `pc` and the stack as they are; otherwise it pops the
top into `pc`. It changes nothing else and never faults. -/
def Obligations.RetPopsOrHalts : Prop :=
  ∀ s : State,
    (s.stack = [] → exec .ret s = .next { s with status := .halted .returnOnEmptyStack }) ∧
    (∀ rest v, s.stack = rest ++ [v] → exec .ret s = .next { s with pc := v, stack := rest })

/-- R177, R178: a RET that finds the stack at the depth a CALL at position p left it at resumes at p + 1
with the caller's stack, after any cycles in between that never returned past that depth. -/
def Obligations.ReturnResumesAfterTheCall : Prop :=
  ∀ (s t u v : State) (a k : Nat), s.FetchesInstr (.call a) → step s = .next t →
    runFor k t = .next u →
    (∀ j w, j ≤ k → runFor j t = .next w → s.stack.length < w.stack.length) →
    u.stack.length = s.stack.length + 1 → u.FetchesInstr .ret → step u = .next v →
    v.pc = s.pc + 1 ∧ v.stack = s.stack ∧ v.status = .running

/-! ### HALT and unrecognized opcodes -/

/-- R190: HALT halts with reason HaltInstruction and changes nothing else, the CallStack included; the
cycle then reports the registers (R115), in the same step (assumption 21). A custom operation named HALT makes no difference: the registry
is any. -/
def Obligations.HaltHalts : Prop :=
  (∀ s : State, exec .halt s = .next { s with status := .halted .haltInstruction }) ∧
  (∀ (s : State) (l : Line), s.Fetches l → decode l = .ok .halt →
    step s = .next { s with
      ir := .line l
      pc := s.pc + 1
      status := .halted .haltInstruction
      reports := s.reports ++ [.registers s.regs] })

/-- R191: a line whose token 0 is none of the eleven mnemonics is reported and has no other effect, whatever
tokens follow; the run continues with the following instruction. -/
def Obligations.UnrecognizedOpcodeOnlyReports : Prop :=
  (∀ (s : State) (op : Token) (args : List Token), exec (.unrecognized op args) s =
    .next { s with reports := s.reports ++ [.unrecognized ⟨op, args⟩] }) ∧
  (∀ (s : State) (l : Line), s.Fetches l → (∀ o : Opcode, o.mnemonic ≠ l.op) →
    step s = .next { s with
      ir := .line l, pc := s.pc + 1, reports := s.reports ++ [.unrecognized l] })

/-! ### Frames -/

/-- R24, R27: the frame of the register-writing instructions LOAD, ADD, SUB and INPUT. No register but the
destination changes and the number of registers stays; every memory cell reads as before; `pc`, `ir`, the
stack and the configuration stay; only INPUT touches the I/O trace and the input stream; the status and the
reports change only where the instruction faults, and then no register changes. -/
def Obligations.RegisterWritersFrame : Prop :=
  ∀ (i : Instr) (s t : State) (rd : Nat),
    (∃ m, i = .load rd m) ∨ (∃ a b, i = .add rd a b) ∨ (∃ a b, i = .sub rd a b) ∨ i = .input rd →
    exec i s = .next t →
    (∀ j, j ≠ rd → t.regs[j]? = s.regs[j]?) ∧ t.regs.length = s.regs.length ∧
    (∀ a, t.mem.get a = s.mem.get a) ∧ t.pc = s.pc ∧ t.ir = s.ir ∧ t.stack = s.stack ∧
    t.params = s.params ∧ t.segtab = s.segtab ∧ t.registry = s.registry ∧ t.program = s.program ∧
    (i ≠ .input rd → t.inputs = s.inputs ∧ t.draws = s.draws ∧ t.ioTrace = s.ioTrace) ∧
    ((t.status = s.status ∧ t.reports = s.reports) ∨
      ∃ f, t.status = .faulted f ∧ t.reports = s.reports ++ [.fault f s.ir (s.pc - 1)] ∧ t.regs = s.regs)

/-- R24, R150: the frame of STORE. Every address but the address literal reads as before, and nothing but
memory changes unless it faults, when no cell changes. -/
def Obligations.StoreFrame : Prop :=
  ∀ (s t : State) (rs addr : Nat), s.mem.wf → exec (.store rs addr) s = .next t →
    (∀ b, b ≠ addr → t.mem.get b = s.mem.get b) ∧
    t.regs = s.regs ∧ t.pc = s.pc ∧ t.ir = s.ir ∧ t.stack = s.stack ∧
    t.params = s.params ∧ t.segtab = s.segtab ∧ t.registry = s.registry ∧ t.program = s.program ∧
    t.inputs = s.inputs ∧ t.draws = s.draws ∧ t.ioTrace = s.ioTrace ∧
    ((t.status = s.status ∧ t.reports = s.reports) ∨
      ∃ f, t.status = .faulted f ∧ t.reports = s.reports ++ [.fault f s.ir (s.pc - 1)] ∧ t.mem = s.mem)

/-- R24, R162, R178, R190, R191: the frame of OUTPUT, JUMP, JUMPZ, CALL, RET, HALT and an unrecognized
opcode. No register and no memory cell changes, nor the configuration, `ir`, the input stream; the stack
changes only in CALL and RET, the I/O trace only in OUTPUT, the status only in HALT, RET and an OUTPUT that
faults, and the reports only in an unrecognized opcode and an OUTPUT that faults. -/
def Obligations.ControlAndOutputFrame : Prop :=
  ∀ (i : Instr) (s t : State),
    (∃ r, i = .output r) ∨ (∃ a, i = .jump a) ∨ (∃ a, i = .jumpz a) ∨ (∃ a, i = .call a) ∨
      i = .ret ∨ i = .halt ∨ (∃ op args, i = .unrecognized op args) →
    exec i s = .next t →
    t.regs = s.regs ∧ (∀ a, t.mem.get a = s.mem.get a) ∧ t.ir = s.ir ∧
    t.params = s.params ∧ t.segtab = s.segtab ∧ t.registry = s.registry ∧ t.program = s.program ∧
    t.inputs = s.inputs ∧ t.draws = s.draws ∧
    ((∀ a, i ≠ .call a) → i ≠ .ret → t.stack = s.stack) ∧
    ((∀ r, i ≠ .output r) → t.ioTrace = s.ioTrace) ∧
    ((∃ r, i = .output r) ∨ i = .halt ∨ (∃ op args, i = .unrecognized op args) → t.pc = s.pc) ∧
    (i = .halt ∨ i = .ret ∨ t.status = s.status ∨ ((∃ r, i = .output r) ∧ ∃ f, t.status = .faulted f)) ∧
    ((∃ op args, i = .unrecognized op args) ∨ t.reports = s.reports ∨
      ((∃ r, i = .output r) ∧ ∃ f, t.status = .faulted f ∧
        t.reports = s.reports ++ [.fault f s.ir (s.pc - 1)] ∧ t.ioTrace = s.ioTrace))

/-! ### Invariants and whole-machine rules -/

/-- R5, R11, R21, R22, R29, R30, R80: every step keeps the invariants of the state: N registers, each a Value,
memory canonical with every listed cell a Value in range, the segment table within MemorySpace, and a program
of proper token lists. -/
def Obligations.StepKeepsWellFormed : Prop :=
  ∀ s t : State, s.Wf → step s = .next t → t.Wf

/-- R28, R174: every step keeps the CallStack a list of positions after some instruction of the program, so
RET never goes further than the program's end. -/
def Obligations.StepKeepsReturnPositions : Prop :=
  ∀ s t : State, s.ReturnsInProgram → step s = .next t →
    t.ReturnsInProgram ∧ (s.FetchesInstr .ret → t.pc ≤ t.program.length)

/-- R73: nothing modifies a descriptor or the table's length during a run. The same of the parameters (R5;
assumption 3), the program (R6, R71; assumption 4) and the registry (R31, D22). -/
def Obligations.RunKeepsTheConfiguration : Prop :=
  ∀ (k : Nat) (s t : State), runFor k s = .next t →
    t.segtab = s.segtab ∧ t.params = s.params ∧ t.program = s.program ∧ t.registry = s.registry
end

