-- ==== Sys2Proof/Laws/Decode.lean ====
section
/-! SUPPORT. Small lemmas about digits, numerals, tokens and the opcode map. -/

namespace Sys2Proof

/-! ### Digits -/

theorem digitChar_toNat {d : Nat} (h : d < 10) : (digitChar d).toNat = '0'.toNat + d := by
  interval_cases d <;> rfl

theorem digitValue_digitChar {base d : Nat} (hd : d < base) (hb : base ≤ 10) :
    digitValue base (digitChar d) = some d := by
  have h := digitChar_toNat (show d < 10 by omega)
  unfold digitValue
  rw [h, if_pos ⟨by omega, by omega⟩]
  congr 1
  omega

theorem isSpace_digitChar {d : Nat} (h : d < 10) : isSpace (digitChar d) = false := by
  interval_cases d <;> rfl

/-- The digits of a numeral stand before those already written. -/
theorem writeDigits_append (base fuel n : Nat) (acc : List Char) :
    writeDigits base fuel n acc = writeDigits base fuel n [] ++ acc := by
  induction fuel generalizing n acc with
  | zero => rfl
  | succ fuel ih =>
    rw [writeDigits, writeDigits]
    split
    · rfl
    · rw [ih, ih (n / base) [_]]
      simp

/-- With fuel for it a numeral has a digit. -/
theorem writeDigits_ne_nil (base fuel n : Nat) (acc : List Char) : writeDigits base (fuel + 1) n acc ≠ [] := by
  induction fuel generalizing n acc with
  | zero => rw [writeDigits]; split <;> simp [writeDigits]
  | succ fuel ih => rw [writeDigits]; split <;> simp [ih]

theorem numeral_ne_nil (base n : Nat) : numeral base n ≠ [] := writeDigits_ne_nil base n n []

/-- Every character of a numeral is a digit of its base. -/
theorem mem_writeDigits {base fuel n : Nat} {acc : List Char} {c : Char} (hb : 0 < base)
    (h : c ∈ writeDigits base fuel n acc) : c ∈ acc ∨ ∃ d < base, c = digitChar d := by
  induction fuel generalizing n acc with
  | zero => exact .inl h
  | succ fuel ih =>
    rw [writeDigits] at h
    have here : c ∈ digitChar (n % base) :: acc → c ∈ acc ∨ ∃ d < base, c = digitChar d := by
      intro h
      rcases List.mem_cons.mp h with rfl | h
      · exact .inr ⟨_, Nat.mod_lt _ hb, rfl⟩
      · exact .inl h
    split at h
    · exact here h
    · rcases ih h with h | h
      · exact here h
      · exact .inr h

theorem mem_numeral {base n : Nat} {c : Char} (hb : 0 < base) (h : c ∈ numeral base n) :
    ∃ d < base, c = digitChar d := by
  simpa using mem_writeDigits hb h

/-! ### Tokens -/

theorem token_wf_iff (t : Token) : Token.wf t = true ↔ t ≠ [] ∧ ∀ c ∈ t, isSpace c = false := by
  simp [Token.wf]

theorem litToken_wf (n : Nat) : Token.wf (litToken n) = true := by
  refine (token_wf_iff _).mpr ⟨numeral_ne_nil 10 n, fun c hc => ?_⟩
  obtain ⟨d, hd, rfl⟩ := mem_numeral (by decide) hc
  exact isSpace_digitChar hd

theorem regToken_wf (n : Nat) : Token.wf (regToken n) = true := by
  refine (token_wf_iff _).mpr ⟨by simp [regToken], fun c hc => ?_⟩
  rcases List.mem_cons.mp hc with rfl | hc
  · rfl
  · exact ((token_wf_iff _).mp (litToken_wf n)).2 c hc

/-! ### The opcode map -/

@[simp] theorem ofToken_mnemonic (o : Opcode) : Opcode.ofToken o.mnemonic = some o := by
  cases o <;> decide

theorem mnemonic_wf (o : Opcode) : Token.wf o.mnemonic = true := by
  cases o <;> decide

/-- A token selects an opcode exactly when it is its mnemonic. -/
theorem ofToken_eq_some {t : Token} {o : Opcode} : Opcode.ofToken t = some o ↔ o.mnemonic = t := by
  constructor
  · intro h
    simpa using List.find?_some h
  · rintro rfl
    exact ofToken_mnemonic o

theorem ofToken_eq_none {t : Token} : Opcode.ofToken t = none ↔ ∀ o : Opcode, o.mnemonic ≠ t := by
  constructor
  · rintro h o rfl
    rw [ofToken_mnemonic] at h
    cases h
  · intro h
    cases ho : Opcode.ofToken t with
    | none => rfl
    | some o => exact absurd (ofToken_eq_some.mp ho) (h o)

/-! ### Operands -/

/-- A line of a mnemonic decodes as its operands do. -/
theorem decode_mnemonic (o : Opcode) (ts : List Token) : decode ⟨o.mnemonic, ts⟩ = parseOperands o ts := by
  simp [decode]

theorem operand_some {parse : Token → Option Nat} {t : Token} {n : Nat} (k : Nat) (h : parse t = some n) :
    operand parse k t = .ok n := by
  simp [operand, h]

theorem operand_none {parse : Token → Option Nat} {t : Token} (k : Nat) (h : parse t = none) :
    operand parse k t = .error (.badOperand k) := by
  simp [operand, h]

end Sys2Proof
end

