-- ==== Sys2Proof/Laws/HostPort.lean ====
section
/-! SUPPORT. One lemma for each check of the load path and the host port: what passes it. -/

namespace Sys2Proof.Machine

theorem launchable_iff {p : Params} {rs : List Value} {program : List Line} :
    launchable p rs program = true ↔ regInitWf p rs = true ∧ programWf program = true := by
  simp [launchable]

/-- A token is no mnemonic in another case: it is a mnemonic, or no case of it is one. -/
theorem mnemonicInOtherCase_eq_false {t : Token} : mnemonicInOtherCase t = false ↔
    (∃ o : Opcode, o.mnemonic = t) ∨ ∀ o : Opcode, o.mnemonic ≠ t.map Char.toUpper := by
  rw [← ofToken_eq_none, mnemonicInOtherCase]
  cases h : Opcode.ofToken t with
  | some o => simpa using Or.inl ⟨o, ofToken_eq_some.mp h⟩
  | none => simpa using fun o ho => absurd ho (ofToken_eq_none.mp h o)

theorem mnemonicShape_iff {t : Token} : mnemonicShape t = true ↔
    ∃ c cs, t = c :: cs ∧ c.isAlpha = true ∧ ∀ d ∈ cs, d.isAlphanum = true := by
  cases t <;> simp [mnemonicShape]

theorem operandShape_iff {t : Token} :
    operandShape t = true ↔ ∃ n, parseReg t = some n ∨ parseLit t = some n := by
  simp [operandShape, Option.isSome_iff_exists, exists_or]

/-- What the transcriber passes as one line. -/
theorem transcribeLine_eq_ok {n : Nat} {cs : List Char} {l : Line} : transcribeLine n cs = .ok l ↔
    lineOfText cs = some l ∧ mnemonicInOtherCase l.op = false ∧ isProgramText l = true := by
  unfold transcribeLine
  split
  · simp [*]
  · rename_i m hm
    constructor
    · intro h
      split at h
      · cases h
      · split at h <;> cases h
        simp_all
    · rintro ⟨h, hc, ht⟩
      obtain rfl : m = l := Option.some.inj (hm.symm.trans h)
      simp [hc, ht]

/-- A text line that passes is followed by the rest of the text. -/
theorem transcribe_cons {n : Nat} {cs : List Char} {rest : List (List Char)} {p : List Line} :
    transcribe n (cs :: rest) = .ok p ↔
      ∃ l ls, p = l :: ls ∧ transcribeLine n cs = .ok l ∧ transcribe (n + 1) rest = .ok ls := by
  rw [transcribe]
  cases transcribeLine n cs with
  | error e => simp [bind, Except.bind]
  | ok l =>
    cases transcribe (n + 1) rest with
    | error e => simp [bind, Except.bind]
    | ok ls => simp [bind, Except.bind, eq_comm]

/-- A line of a known opcode passes the assembler. -/
theorem assemble_cons {n : Nat} {l : Line} {o : Opcode} (p : List Line) (h : o.mnemonic = l.op) :
    assemble n (l :: p) = (assemble (n + 1) p).map (l :: ·) := by
  rw [assemble, ← h, ofToken_mnemonic]
  cases assemble (n + 1) p <;> rfl

/-- A line of another opcode does not. -/
theorem assemble_cons_unknown {n : Nat} {l : Line} (p : List Line) (h : ∀ o : Opcode, o.mnemonic ≠ l.op) :
    assemble n (l :: p) = .error (.unknownInstruction l n) := by
  rw [assemble, ofToken_eq_none.mpr h]

@[simp] theorem renderAlu_ofNat (v : Nat) : renderAlu (.value (v : Int)) = some (bintext v) := by
  simp [renderAlu]

theorem renderAlu_neg {z : Int} (h : z < 0) : renderAlu (.value z) = none := by
  simp [renderAlu, h]

end Sys2Proof.Machine
end

