-- ==== Sys2Proof/Laws/Memory.lean ====
section
/-! SUPPORT. The laws of the memory list: what a write makes each address read as, and that every
operation keeps the canonical form and the bounds of addresses and values. -/

namespace Sys2Proof.Machine.Memory

theorem get_cons (a b : Nat) (v : Value) (m : Memory) (h : Memory.get a m = unlisted) :
    Memory.get b (Memory.cons a v m) = if b = a then v else Memory.get b m := by
  unfold Memory.cons
  split <;> rename_i hv
  · split <;> rename_i hb
    · rw [hb, hv, h]
    · rfl
  · rfl

/-- An address below every listed one reads as unlisted. -/
theorem get_below (a : Nat) (m : Memory) (h : ∀ c ∈ m, a < c.1) : Memory.get a m = unlisted := by
  induction m with
  | nil => rfl
  | cons c m ih =>
    obtain ⟨b, w⟩ := c
    have hb : a < b := h (b, w) (by simp)
    rw [Memory.get, if_neg (by omega), ih (fun c hc => h c (by simp [hc]))]

/-- What every address reads as after a write of one cell (20_memory.md R53, R54). -/
theorem get_put (a b : Nat) (v : Value) (m : Memory) (hm : m.Pairwise (fun x y => x.1 < y.1)) :
    Memory.get b (Memory.put a v m) = if b = a then v else Memory.get b m := by
  induction m with
  | nil => exact get_cons a b v [] rfl
  | cons c m ih =>
    obtain ⟨d, w⟩ := c
    obtain ⟨hd, hm⟩ := List.pairwise_cons.mp hm
    rw [Memory.put]
    split <;> rename_i had
    · refine get_cons a b v _ (get_below a _ ?_)
      intro c hc
      rcases List.mem_cons.mp hc with rfl | hc
      · exact had
      · exact Nat.lt_trans had (hd c hc)
    · split <;> rename_i hae
      · subst hae
        rw [get_cons a b v m (get_below a m hd), Memory.get]
        split <;> rfl
      · rw [Memory.get, ih hm, Memory.get]
        split <;> rename_i hbd
        · rw [if_neg (by omega)]
        · rfl

theorem mem_cons {a : Nat} {v : Value} {m : Memory} {c : Nat × Value} (h : c ∈ Memory.cons a v m) :
    c = (a, v) ∧ v ≠ unlisted ∨ c ∈ m := by
  unfold Memory.cons at h
  split at h
  · exact .inr h
  · rename_i hv
    rcases List.mem_cons.mp h with rfl | h
    · exact .inl ⟨rfl, hv⟩
    · exact .inr h

/-- Every cell after a write is the written one or one of before. -/
theorem mem_put {a : Nat} {v : Value} {m : Memory} {c : Nat × Value} (h : c ∈ Memory.put a v m) :
    c = (a, v) ∧ v ≠ unlisted ∨ c ∈ m := by
  induction m with
  | nil => exact mem_cons h
  | cons d m ih =>
    obtain ⟨b, w⟩ := d
    rw [Memory.put] at h
    split at h
    · exact mem_cons h
    · split at h
      · exact (mem_cons h).imp_right (List.mem_cons_of_mem _)
      · rcases List.mem_cons.mp h with rfl | h
        · exact .inr (by simp)
        · exact (ih h).imp_right (List.mem_cons_of_mem _)

theorem cons_wf {a : Nat} {v : Value} {m : Memory} (hm : m.wf) (h : ∀ c ∈ m, a < c.1) :
    (Memory.cons a v m).wf := by
  unfold Memory.cons
  split
  · exact hm
  · rename_i hv
    refine ⟨List.pairwise_cons.mpr ⟨h, hm.1⟩, ?_⟩
    intro c hc
    rcases List.mem_cons.mp hc with rfl | hc
    · exact hv
    · exact hm.2 c hc

/-- A write keeps the canonical form. -/
theorem put_wf (a : Nat) (v : Value) {m : Memory} (hm : m.wf) : (Memory.put a v m).wf := by
  induction m with
  | nil => exact cons_wf hm (by simp)
  | cons d m ih =>
    obtain ⟨b, w⟩ := d
    obtain ⟨hb, hp⟩ := List.pairwise_cons.mp hm.1
    have hm' : Memory.wf m := ⟨hp, fun c hc => hm.2 c (by simp [hc])⟩
    rw [Memory.put]
    split <;> rename_i had
    · refine cons_wf hm ?_
      intro c hc
      rcases List.mem_cons.mp hc with rfl | hc
      · exact had
      · exact Nat.lt_trans had (hb c hc)
    · split <;> rename_i hae
      · subst hae
        exact cons_wf hm' hb
      · refine ⟨List.pairwise_cons.mpr ⟨?_, (ih hm').1⟩, ?_⟩
        · intro c hc
          rcases mem_put hc with ⟨rfl, -⟩ | hc
          · show b < a
            omega
          · exact hb c hc
        · intro c hc
          rcases List.mem_cons.mp hc with rfl | hc
          · exact hm.2 _ (by simp)
          · exact (ih hm').2 c hc

end Sys2Proof.Machine.Memory
end

