-- ==== Sys2Proof/Laws/State.lean ====
section
/-! SUPPORT. One lemma per field per update function of State, so that no proof unfolds a record update. -/

namespace Sys2Proof.Machine.State

variable (s : State)

/-! ### `setPc` -/

@[simp] theorem setPc_params (t : Nat) : (s.setPc t).params = s.params := rfl
@[simp] theorem setPc_regs (t : Nat) : (s.setPc t).regs = s.regs := rfl
@[simp] theorem setPc_pc (t : Nat) : (s.setPc t).pc = t := rfl
@[simp] theorem setPc_ir (t : Nat) : (s.setPc t).ir = s.ir := rfl
@[simp] theorem setPc_stack (t : Nat) : (s.setPc t).stack = s.stack := rfl
@[simp] theorem setPc_status (t : Nat) : (s.setPc t).status = s.status := rfl
@[simp] theorem setPc_mem (t : Nat) : (s.setPc t).mem = s.mem := rfl
@[simp] theorem setPc_segtab (t : Nat) : (s.setPc t).segtab = s.segtab := rfl
@[simp] theorem setPc_registry (t : Nat) : (s.setPc t).registry = s.registry := rfl
@[simp] theorem setPc_program (t : Nat) : (s.setPc t).program = s.program := rfl
@[simp] theorem setPc_inputs (t : Nat) : (s.setPc t).inputs = s.inputs := rfl
@[simp] theorem setPc_draws (t : Nat) : (s.setPc t).draws = s.draws := rfl
@[simp] theorem setPc_ioTrace (t : Nat) : (s.setPc t).ioTrace = s.ioTrace := rfl
@[simp] theorem setPc_reports (t : Nat) : (s.setPc t).reports = s.reports := rfl

/-! ### `setIr` -/

@[simp] theorem setIr_params (e : InstrReg) : (s.setIr e).params = s.params := rfl
@[simp] theorem setIr_regs (e : InstrReg) : (s.setIr e).regs = s.regs := rfl
@[simp] theorem setIr_pc (e : InstrReg) : (s.setIr e).pc = s.pc := rfl
@[simp] theorem setIr_ir (e : InstrReg) : (s.setIr e).ir = e := rfl
@[simp] theorem setIr_stack (e : InstrReg) : (s.setIr e).stack = s.stack := rfl
@[simp] theorem setIr_status (e : InstrReg) : (s.setIr e).status = s.status := rfl
@[simp] theorem setIr_mem (e : InstrReg) : (s.setIr e).mem = s.mem := rfl
@[simp] theorem setIr_segtab (e : InstrReg) : (s.setIr e).segtab = s.segtab := rfl
@[simp] theorem setIr_registry (e : InstrReg) : (s.setIr e).registry = s.registry := rfl
@[simp] theorem setIr_program (e : InstrReg) : (s.setIr e).program = s.program := rfl
@[simp] theorem setIr_inputs (e : InstrReg) : (s.setIr e).inputs = s.inputs := rfl
@[simp] theorem setIr_draws (e : InstrReg) : (s.setIr e).draws = s.draws := rfl
@[simp] theorem setIr_ioTrace (e : InstrReg) : (s.setIr e).ioTrace = s.ioTrace := rfl
@[simp] theorem setIr_reports (e : InstrReg) : (s.setIr e).reports = s.reports := rfl

/-! ### `setRegs` -/

@[simp] theorem setRegs_params (rs : List Value) : (s.setRegs rs).params = s.params := rfl
@[simp] theorem setRegs_regs (rs : List Value) : (s.setRegs rs).regs = rs := rfl
@[simp] theorem setRegs_pc (rs : List Value) : (s.setRegs rs).pc = s.pc := rfl
@[simp] theorem setRegs_ir (rs : List Value) : (s.setRegs rs).ir = s.ir := rfl
@[simp] theorem setRegs_stack (rs : List Value) : (s.setRegs rs).stack = s.stack := rfl
@[simp] theorem setRegs_status (rs : List Value) : (s.setRegs rs).status = s.status := rfl
@[simp] theorem setRegs_mem (rs : List Value) : (s.setRegs rs).mem = s.mem := rfl
@[simp] theorem setRegs_segtab (rs : List Value) : (s.setRegs rs).segtab = s.segtab := rfl
@[simp] theorem setRegs_registry (rs : List Value) : (s.setRegs rs).registry = s.registry := rfl
@[simp] theorem setRegs_program (rs : List Value) : (s.setRegs rs).program = s.program := rfl
@[simp] theorem setRegs_inputs (rs : List Value) : (s.setRegs rs).inputs = s.inputs := rfl
@[simp] theorem setRegs_draws (rs : List Value) : (s.setRegs rs).draws = s.draws := rfl
@[simp] theorem setRegs_ioTrace (rs : List Value) : (s.setRegs rs).ioTrace = s.ioTrace := rfl
@[simp] theorem setRegs_reports (rs : List Value) : (s.setRegs rs).reports = s.reports := rfl

/-! ### `setStack` -/

@[simp] theorem setStack_params (st : List Nat) : (s.setStack st).params = s.params := rfl
@[simp] theorem setStack_regs (st : List Nat) : (s.setStack st).regs = s.regs := rfl
@[simp] theorem setStack_pc (st : List Nat) : (s.setStack st).pc = s.pc := rfl
@[simp] theorem setStack_ir (st : List Nat) : (s.setStack st).ir = s.ir := rfl
@[simp] theorem setStack_stack (st : List Nat) : (s.setStack st).stack = st := rfl
@[simp] theorem setStack_status (st : List Nat) : (s.setStack st).status = s.status := rfl
@[simp] theorem setStack_mem (st : List Nat) : (s.setStack st).mem = s.mem := rfl
@[simp] theorem setStack_segtab (st : List Nat) : (s.setStack st).segtab = s.segtab := rfl
@[simp] theorem setStack_registry (st : List Nat) : (s.setStack st).registry = s.registry := rfl
@[simp] theorem setStack_program (st : List Nat) : (s.setStack st).program = s.program := rfl
@[simp] theorem setStack_inputs (st : List Nat) : (s.setStack st).inputs = s.inputs := rfl
@[simp] theorem setStack_draws (st : List Nat) : (s.setStack st).draws = s.draws := rfl
@[simp] theorem setStack_ioTrace (st : List Nat) : (s.setStack st).ioTrace = s.ioTrace := rfl
@[simp] theorem setStack_reports (st : List Nat) : (s.setStack st).reports = s.reports := rfl

/-! ### `setMem` -/

@[simp] theorem setMem_params (m : Memory) : (s.setMem m).params = s.params := rfl
@[simp] theorem setMem_regs (m : Memory) : (s.setMem m).regs = s.regs := rfl
@[simp] theorem setMem_pc (m : Memory) : (s.setMem m).pc = s.pc := rfl
@[simp] theorem setMem_ir (m : Memory) : (s.setMem m).ir = s.ir := rfl
@[simp] theorem setMem_stack (m : Memory) : (s.setMem m).stack = s.stack := rfl
@[simp] theorem setMem_status (m : Memory) : (s.setMem m).status = s.status := rfl
@[simp] theorem setMem_mem (m : Memory) : (s.setMem m).mem = m := rfl
@[simp] theorem setMem_segtab (m : Memory) : (s.setMem m).segtab = s.segtab := rfl
@[simp] theorem setMem_registry (m : Memory) : (s.setMem m).registry = s.registry := rfl
@[simp] theorem setMem_program (m : Memory) : (s.setMem m).program = s.program := rfl
@[simp] theorem setMem_inputs (m : Memory) : (s.setMem m).inputs = s.inputs := rfl
@[simp] theorem setMem_draws (m : Memory) : (s.setMem m).draws = s.draws := rfl
@[simp] theorem setMem_ioTrace (m : Memory) : (s.setMem m).ioTrace = s.ioTrace := rfl
@[simp] theorem setMem_reports (m : Memory) : (s.setMem m).reports = s.reports := rfl

/-! ### `setStatus` -/

@[simp] theorem setStatus_params (st : Status) : (s.setStatus st).params = s.params := rfl
@[simp] theorem setStatus_regs (st : Status) : (s.setStatus st).regs = s.regs := rfl
@[simp] theorem setStatus_pc (st : Status) : (s.setStatus st).pc = s.pc := rfl
@[simp] theorem setStatus_ir (st : Status) : (s.setStatus st).ir = s.ir := rfl
@[simp] theorem setStatus_stack (st : Status) : (s.setStatus st).stack = s.stack := rfl
@[simp] theorem setStatus_status (st : Status) : (s.setStatus st).status = st := rfl
@[simp] theorem setStatus_mem (st : Status) : (s.setStatus st).mem = s.mem := rfl
@[simp] theorem setStatus_segtab (st : Status) : (s.setStatus st).segtab = s.segtab := rfl
@[simp] theorem setStatus_registry (st : Status) : (s.setStatus st).registry = s.registry := rfl
@[simp] theorem setStatus_program (st : Status) : (s.setStatus st).program = s.program := rfl
@[simp] theorem setStatus_inputs (st : Status) : (s.setStatus st).inputs = s.inputs := rfl
@[simp] theorem setStatus_draws (st : Status) : (s.setStatus st).draws = s.draws := rfl
@[simp] theorem setStatus_ioTrace (st : Status) : (s.setStatus st).ioTrace = s.ioTrace := rfl
@[simp] theorem setStatus_reports (st : Status) : (s.setStatus st).reports = s.reports := rfl

/-! ### `emit` -/

@[simp] theorem emit_params (r : Report) : (s.emit r).params = s.params := rfl
@[simp] theorem emit_regs (r : Report) : (s.emit r).regs = s.regs := rfl
@[simp] theorem emit_pc (r : Report) : (s.emit r).pc = s.pc := rfl
@[simp] theorem emit_ir (r : Report) : (s.emit r).ir = s.ir := rfl
@[simp] theorem emit_stack (r : Report) : (s.emit r).stack = s.stack := rfl
@[simp] theorem emit_status (r : Report) : (s.emit r).status = s.status := rfl
@[simp] theorem emit_mem (r : Report) : (s.emit r).mem = s.mem := rfl
@[simp] theorem emit_segtab (r : Report) : (s.emit r).segtab = s.segtab := rfl
@[simp] theorem emit_registry (r : Report) : (s.emit r).registry = s.registry := rfl
@[simp] theorem emit_program (r : Report) : (s.emit r).program = s.program := rfl
@[simp] theorem emit_inputs (r : Report) : (s.emit r).inputs = s.inputs := rfl
@[simp] theorem emit_draws (r : Report) : (s.emit r).draws = s.draws := rfl
@[simp] theorem emit_ioTrace (r : Report) : (s.emit r).ioTrace = s.ioTrace := rfl
@[simp] theorem emit_reports (r : Report) : (s.emit r).reports = s.reports ++ [r] := rfl

/-! ### `logIo` -/

@[simp] theorem logIo_params (e : IoEvent) : (s.logIo e).params = s.params := rfl
@[simp] theorem logIo_regs (e : IoEvent) : (s.logIo e).regs = s.regs := rfl
@[simp] theorem logIo_pc (e : IoEvent) : (s.logIo e).pc = s.pc := rfl
@[simp] theorem logIo_ir (e : IoEvent) : (s.logIo e).ir = s.ir := rfl
@[simp] theorem logIo_stack (e : IoEvent) : (s.logIo e).stack = s.stack := rfl
@[simp] theorem logIo_status (e : IoEvent) : (s.logIo e).status = s.status := rfl
@[simp] theorem logIo_mem (e : IoEvent) : (s.logIo e).mem = s.mem := rfl
@[simp] theorem logIo_segtab (e : IoEvent) : (s.logIo e).segtab = s.segtab := rfl
@[simp] theorem logIo_registry (e : IoEvent) : (s.logIo e).registry = s.registry := rfl
@[simp] theorem logIo_program (e : IoEvent) : (s.logIo e).program = s.program := rfl
@[simp] theorem logIo_inputs (e : IoEvent) : (s.logIo e).inputs = s.inputs := rfl
@[simp] theorem logIo_draws (e : IoEvent) : (s.logIo e).draws = s.draws := rfl
@[simp] theorem logIo_ioTrace (e : IoEvent) : (s.logIo e).ioTrace = s.ioTrace ++ [e] := rfl
@[simp] theorem logIo_reports (e : IoEvent) : (s.logIo e).reports = s.reports := rfl

end Sys2Proof.Machine.State

namespace Sys2Proof.Machine

variable (s : State)

/-! ### Taking a fault and halting -/

@[simp] theorem takeFault_params (f : Fault) : (takeFault f s).params = s.params := rfl
@[simp] theorem takeFault_regs (f : Fault) : (takeFault f s).regs = s.regs := rfl
@[simp] theorem takeFault_pc (f : Fault) : (takeFault f s).pc = s.pc := rfl
@[simp] theorem takeFault_ir (f : Fault) : (takeFault f s).ir = s.ir := rfl
@[simp] theorem takeFault_stack (f : Fault) : (takeFault f s).stack = s.stack := rfl
@[simp] theorem takeFault_status (f : Fault) : (takeFault f s).status = .faulted f := rfl
@[simp] theorem takeFault_mem (f : Fault) : (takeFault f s).mem = s.mem := rfl
@[simp] theorem takeFault_segtab (f : Fault) : (takeFault f s).segtab = s.segtab := rfl
@[simp] theorem takeFault_registry (f : Fault) : (takeFault f s).registry = s.registry := rfl
@[simp] theorem takeFault_program (f : Fault) : (takeFault f s).program = s.program := rfl
@[simp] theorem takeFault_inputs (f : Fault) : (takeFault f s).inputs = s.inputs := rfl
@[simp] theorem takeFault_draws (f : Fault) : (takeFault f s).draws = s.draws := rfl
@[simp] theorem takeFault_ioTrace (f : Fault) : (takeFault f s).ioTrace = s.ioTrace := rfl
@[simp] theorem takeFault_reports (f : Fault) : (takeFault f s).reports = s.reports ++ [.fault f s.ir (s.pc - 1)] := rfl

@[simp] theorem halt_params (r : HaltReason) : (halt r s).params = s.params := rfl
@[simp] theorem halt_regs (r : HaltReason) : (halt r s).regs = s.regs := rfl
@[simp] theorem halt_pc (r : HaltReason) : (halt r s).pc = s.pc := rfl
@[simp] theorem halt_ir (r : HaltReason) : (halt r s).ir = s.ir := rfl
@[simp] theorem halt_stack (r : HaltReason) : (halt r s).stack = s.stack := rfl
@[simp] theorem halt_status (r : HaltReason) : (halt r s).status = .halted r := rfl
@[simp] theorem halt_mem (r : HaltReason) : (halt r s).mem = s.mem := rfl
@[simp] theorem halt_segtab (r : HaltReason) : (halt r s).segtab = s.segtab := rfl
@[simp] theorem halt_registry (r : HaltReason) : (halt r s).registry = s.registry := rfl
@[simp] theorem halt_program (r : HaltReason) : (halt r s).program = s.program := rfl
@[simp] theorem halt_inputs (r : HaltReason) : (halt r s).inputs = s.inputs := rfl
@[simp] theorem halt_draws (r : HaltReason) : (halt r s).draws = s.draws := rfl
@[simp] theorem halt_ioTrace (r : HaltReason) : (halt r s).ioTrace = s.ioTrace := rfl
@[simp] theorem halt_reports (r : HaltReason) : (halt r s).reports = s.reports := rfl

end Sys2Proof.Machine
end

