-- ==== Sys2Proof/Laws/Ops.lean ====
section
/-! SUPPORT. For each shared operation, one lemma that says everything it can do. -/

namespace Sys2Proof.Machine

variable {s t : State}

/-- The faults that some line of a program can raise (60_exceptions.md R201, last column). -/
def Fault.CanEndRun : Fault → Prop
  | .invalidRegister _ => True
  | .invalidAddress _ => True
  | .invalidSegment _ => False
  | .invalidOffset _ _ => False
  | .unknownOperation _ => False
  | .malformedInstruction _ _ => True
  | .negativeValue _ => True
  | .valueOverflow _ => True

/-! ### Registers -/

theorem readReg_spec (i : Nat) (s : State) :
    (i < s.params.numRegs ∧ readReg i s = .ok (s.regs.getD i 0)) ∨
    (s.params.numRegs ≤ i ∧ readReg i s = .error (.invalidRegister i)) := by
  unfold readReg
  split
  · exact .inr ⟨‹_›, rfl⟩
  · exact .inl ⟨by omega, rfl⟩

theorem writeReg_spec (i : Nat) (v : Value) (s : State) :
    (i < s.params.numRegs ∧ writeReg i v s = .ok (s.setRegs (s.regs.set i v))) ∨
    (s.params.numRegs ≤ i ∧ writeReg i v s = .error (.invalidRegister i)) := by
  unfold writeReg
  split
  · exact .inr ⟨‹_›, rfl⟩
  · exact .inl ⟨by omega, rfl⟩

/-! ### The result check -/

/-- What `canon` can answer: the Value itself, or one of its two faults (R12). -/
theorem canon_spec (p : Params) (z : Int) :
    (∃ v : Value, (v : Int) = z ∧ p.isValue v = true ∧ canon p z = .ok v) ∨
    (z < 0 ∧ canon p z = .error (.negativeValue z)) ∨
    (0 ≤ z ∧ ∃ w, p.valueBits = some w ∧ (2 : Int) ^ w ≤ z ∧ canon p z = .error (.valueOverflow z)) := by
  unfold canon Params.isValue
  by_cases hz : z < 0
  · exact .inr (.inl ⟨hz, by simp [hz]⟩)
  · cases hw : p.valueBits with
    | none => exact .inl ⟨z.toNat, by omega, rfl, by simp [hz]⟩
    | some w =>
      by_cases hwz : (2 : Int) ^ w ≤ z
      · exact .inr (.inr ⟨by omega, w, rfl, hwz, by simp [hz, hwz]⟩)
      · refine .inl ⟨z.toNat, by omega, ?_, by simp [hz, hwz]⟩
        have h : ((z.toNat : Nat) : Int) < ((2 ^ w : Nat) : Int) := by push_cast; omega
        exact decide_eq_true (by exact_mod_cast h)

/-- A Value passes the check unchanged. -/
theorem canon_value {p : Params} {v : Nat} (h : p.isValue v = true) : canon p (v : Int) = .ok v := by
  rcases canon_spec p (v : Int) with ⟨u, hu, -, e⟩ | ⟨hz, -⟩ | ⟨-, w, hw, hz, -⟩
  · rw [e, show u = v by exact_mod_cast hu]
  · omega
  · simp only [Params.isValue, hw, decide_eq_true_eq] at h
    have : (v : Int) < ((2 ^ w : Nat) : Int) := by exact_mod_cast h
    push_cast at this
    omega

/-- What the end of a register-writing instruction can do (R213). -/
theorem writeBack_spec (d : Nat) (z : Int) (s : State) :
    (∃ v : Value, (v : Int) = z ∧ s.params.isValue v = true ∧ d < s.params.numRegs ∧
      writeBack d z s = .next (s.setRegs (s.regs.set d v))) ∨
    (∃ f, Fault.CanEndRun f ∧ writeBack d z s = .next (takeFault f s)) := by
  rcases canon_spec s.params z with ⟨v, hv, hc, e⟩ | ⟨-, e⟩ | ⟨-, w, -, -, e⟩
  · rcases writeReg_spec d v s with ⟨hd, e'⟩ | ⟨-, e'⟩
    · exact .inl ⟨v, hv, hc, hd, by simp only [writeBack, orRaise, e, e']⟩
    · exact .inr ⟨.invalidRegister d, trivial, by simp only [writeBack, orRaise, raise, e, e']⟩
  · exact .inr ⟨.negativeValue z, trivial, by simp only [writeBack, orRaise, raise, e]⟩
  · exact .inr ⟨.valueOverflow z, trivial, by simp only [writeBack, orRaise, raise, e]⟩

/-! ### The ALU -/

theorem registry_find_define (name n : Token) (fn : FnHandle) (r : Registry) :
    Registry.find n (Registry.define name fn r) = if n = name then some fn else Registry.find n r := by
  have tail : n ≠ name →
      Registry.find n (r.filter (fun e => decide (e.1 ≠ name))) = Registry.find n r := by
    intro hn
    induction r with
    | nil => rfl
    | cons e r ih =>
      obtain ⟨m, h⟩ := e
      rw [List.filter_cons]
      split <;> rename_i hm
      · rw [Registry.find, ih, Registry.find]
      · have : m = name := by simpa using hm
        rw [ih, Registry.find, if_neg (by rw [this]; exact hn)]
  rw [Registry.define, Registry.find]
  split
  · rfl
  · exact tail ‹_›

/-- What the CPU's ADD call computes: the custom function where one is registered, else the sum. -/
theorem aluThen_add (a b : Int) (s : State) (k : Int → StepOutcome) :
    aluThen aluAdd a (some b) s k =
      k (match s.registry.find aluAdd with
        | some fn => Config.customOp fn a (some b)
        | none => a + b) := by
  unfold aluThen aluExecute
  cases s.registry.find aluAdd <;> rfl

/-- What the CPU's SUB call computes. -/
theorem aluThen_sub (a b : Int) (s : State) (k : Int → StepOutcome) :
    aluThen aluSub a (some b) s k =
      k (match s.registry.find aluSub with
        | some fn => Config.customOp fn a (some b)
        | none => a - b) := by
  unfold aluThen aluExecute
  cases s.registry.find aluSub <;> rfl

/-- What the CPU's LOAD call computes. -/
theorem aluThen_load (a : Int) (s : State) (k : Int → StepOutcome) :
    aluThen aluLoad a none s k =
      k (match s.registry.find aluLoad with
        | some fn => Config.customOp fn a none
        | none => a) := by
  unfold aluThen aluExecute
  cases s.registry.find aluLoad <;> rfl

/-- None of the CPU's three calls is refused or raises: each goes on with some integer (R143). -/
theorem aluThen_spec (s : State) (a : Int) :
    (∃ z, ∀ k, aluThen aluLoad a none s k = k z) ∧
    (∀ b, ∃ z, ∀ k, aluThen aluAdd a (some b) s k = k z) ∧
    (∀ b, ∃ z, ∀ k, aluThen aluSub a (some b) s k = k z) :=
  ⟨⟨_, aluThen_load a s⟩, fun b => ⟨_, aluThen_add a b s⟩, fun b => ⟨_, aluThen_sub a b s⟩⟩

/-! ### Memory and segments -/

theorem memRead_spec (a : Nat) (s : State) :
    (a < s.params.memorySize ∧ memRead a s = .ok (s.mem.get a)) ∨
    (s.params.memorySize ≤ a ∧ memRead a s = .error (.invalidAddress a)) := by
  unfold memRead
  split
  · exact .inr ⟨‹_›, rfl⟩
  · exact .inl ⟨by omega, rfl⟩

theorem memWrite_spec (a : Nat) (v : Value) (s : State) :
    (a < s.params.memorySize ∧ memWrite a v s = .ok (s.setMem (s.mem.put a v))) ∨
    (s.params.memorySize ≤ a ∧ memWrite a v s = .error (.invalidAddress a)) := by
  unfold memWrite
  split
  · exact .inr ⟨‹_›, rfl⟩
  · exact .inl ⟨by omega, rfl⟩

theorem segTranslate_spec (seg o : Nat) (s : State) :
    (s.segtab.length ≤ seg ∧ segTranslate seg o s = .error (.invalidSegment seg)) ∨
    (∃ d, s.segtab[seg]? = some d ∧ d.limit ≤ o ∧ segTranslate seg o s = .error (.invalidOffset seg o)) ∨
    (∃ d, s.segtab[seg]? = some d ∧ o < d.limit ∧ segTranslate seg o s = .ok (d.base + o)) := by
  unfold segTranslate
  cases h : s.segtab[seg]? with
  | none => exact .inl ⟨by simpa using h, rfl⟩
  | some d =>
    by_cases hd : d.limit ≤ o
    · exact .inr (.inl ⟨d, rfl, hd, by simp [hd]⟩)
    · exact .inr (.inr ⟨d, rfl, by omega, by simp [hd]⟩)

/-! ### The CallStack -/

theorem pop_spec (s : State) :
    (s.stack = [] ∧ pop s = none) ∨
    (∃ rest v, s.stack = rest ++ [v] ∧ pop s = some (v, s.setStack rest)) := by
  rcases List.eq_nil_or_concat s.stack with h | ⟨rest, v, h⟩
  · exact .inl ⟨h, by simp [pop, h]⟩
  · exact .inr ⟨rest, v, by simpa using h, by simp [pop, h]⟩

/-! ### The input port -/

/-- What `IoIn` does: one integer, of `inputs` or drawn, is logged, and only `inputs`, `draws` and
`ioTrace` change. -/
theorem ioIn_spec (s : State) :
    ∃ z ins n, ioIn s = (z, { s with inputs := ins, draws := n, ioTrace := s.ioTrace ++ [.input z] }) ∧
      ((s.inputs = z :: ins ∧ n = s.draws) ∨
       (s.inputs = [] ∧ ins = [] ∧ n = s.draws + 1 ∧ z = Config.ioDraw s.draws)) := by
  cases h : s.inputs with
  | nil =>
    refine ⟨Config.ioDraw s.draws, [], s.draws + 1, ?_, .inr ⟨rfl, rfl, rfl, rfl⟩⟩
    cases s
    cases h
    rfl
  | cons z rest =>
    refine ⟨z, rest, s.draws, ?_, .inl ⟨rfl, rfl⟩⟩
    cases s
    cases h
    rfl

/-! The fields `IoIn` leaves. -/

@[simp] theorem ioIn_params (s : State) : (ioIn s).2.params = s.params := by unfold ioIn; split <;> rfl
@[simp] theorem ioIn_regs (s : State) : (ioIn s).2.regs = s.regs := by unfold ioIn; split <;> rfl
@[simp] theorem ioIn_pc (s : State) : (ioIn s).2.pc = s.pc := by unfold ioIn; split <;> rfl
@[simp] theorem ioIn_ir (s : State) : (ioIn s).2.ir = s.ir := by unfold ioIn; split <;> rfl
@[simp] theorem ioIn_stack (s : State) : (ioIn s).2.stack = s.stack := by unfold ioIn; split <;> rfl
@[simp] theorem ioIn_status (s : State) : (ioIn s).2.status = s.status := by unfold ioIn; split <;> rfl
@[simp] theorem ioIn_mem (s : State) : (ioIn s).2.mem = s.mem := by unfold ioIn; split <;> rfl
@[simp] theorem ioIn_segtab (s : State) : (ioIn s).2.segtab = s.segtab := by unfold ioIn; split <;> rfl
@[simp] theorem ioIn_registry (s : State) : (ioIn s).2.registry = s.registry := by unfold ioIn; split <;> rfl
@[simp] theorem ioIn_program (s : State) : (ioIn s).2.program = s.program := by unfold ioIn; split <;> rfl
@[simp] theorem ioIn_reports (s : State) : (ioIn s).2.reports = s.reports := by unfold ioIn; split <;> rfl
@[simp] theorem ioIn_ioTrace (s : State) : (ioIn s).2.ioTrace = s.ioTrace ++ [.input (ioIn s).1] := by
  unfold ioIn; split <;> rfl

/-! ### Fetch -/

theorem fetch_spec (s : State) :
    (∃ l, s.program[s.pc]? = some l ∧ fetch s = (s.setIr (.line l)).setPc (s.pc + 1)) ∨
    (s.program[s.pc]? = none ∧ fetch s = s.setIr .endMarker) := by
  unfold fetch
  cases h : s.program[s.pc]? with
  | none => exact .inr ⟨rfl, rfl⟩
  | some l => exact .inl ⟨l, rfl, rfl⟩

/-- The line that `placeLine` puts at a position is there. -/
theorem placeLine_getElem (l : Line) (n : Nat) (p : List Line) : (placeLine l n p)[n]? = some l := by
  induction n generalizing p with
  | zero => cases p <;> rfl
  | succ n ih => cases p <;> exact ih _

/-- Where a line is put, the positions before and after keep theirs. -/
theorem placeLine_getElem_ne (l : Line) (n j : Nat) (p : List Line) (hn : j ≠ n) (hj : j < p.length) :
    (placeLine l n p)[j]? = p[j]? := by
  induction p generalizing n j with
  | nil => simp at hj
  | cons x p ih =>
    cases n with
    | zero =>
      cases j with
      | zero => exact absurd rfl hn
      | succ j => simp [placeLine]
    | succ n =>
      cases j with
      | zero => simp [placeLine]
      | succ j => simpa [placeLine] using ih n j (by omega) (by simpa using hj)

theorem placeLine_length (l : Line) (n : Nat) (p : List Line) :
    (placeLine l n p).length = max p.length (n + 1) := by
  induction n generalizing p with
  | zero => cases p <;> simp [placeLine]
  | succ n ih => cases p <;> simp [placeLine, ih]

/-! ### What a meaning can do -/

/-- The instructions that can fault once decoded: those that access a register (R201). -/
def MayFault : Instr → Prop
  | .load _ _ => True
  | .add _ _ _ => True
  | .sub _ _ _ => True
  | .store _ _ => True
  | .input _ => True
  | .output _ => True
  | .jump _ => False
  | .jumpz _ => False
  | .call _ => False
  | .ret => False
  | .halt => False
  | .unrecognized _ _ => False

/-- Everything a meaning can do: one next state, by one of these effects. The invariants, frames and
fault rules are read off this lemma. -/
inductive ExecEffect (i : Instr) (s : State) : State → Prop where
  | faulted (f : Fault) (hf : Fault.CanEndRun f) (hi : MayFault i) : ExecEffect i s (takeFault f s)
  | inputFaulted (rd : Nat) (f : Fault) (hf : Fault.CanEndRun f) (hi : i = .input rd) :
       ExecEffect i s (takeFault f (ioIn s).2)
  | wroteReg (d : Nat) (v : Value) (hd : d < s.params.numRegs) (hv : s.params.isValue v = true)
      (hi : (∃ m, i = .load d m) ∨ (∃ a b, i = .add d a b) ∨ (∃ a b, i = .sub d a b)) :
      ExecEffect i s (s.setRegs (s.regs.set d v))
  | wroteInput (d : Nat) (v : Value) (hd : d < s.params.numRegs) (hv : s.params.isValue v = true)
      (hz : (ioIn s).1 = (v : Int)) (hi : i = .input d) :
      ExecEffect i s ((ioIn s).2.setRegs (s.regs.set d v))
  | stored (r a : Nat) (hr : r < s.params.numRegs) (ha : a < s.params.memorySize) (hi : i = .store r a) :
      ExecEffect i s (s.setMem (s.mem.put a (s.regs.getD r 0)))
  | delivered (r : Nat) (hr : r < s.params.numRegs) (hi : i = .output r) :
      ExecEffect i s (s.logIo (.output (s.regs.getD r 0)))
  | jumped (a : Nat) (hi : i = .jump a ∨ (i = .jumpz a ∧ registerZeroIsZero s = true)) :
      ExecEffect i s (s.setPc a)
  | fellThrough (a : Nat) (hi : i = .jumpz a) (hz : registerZeroIsZero s = false) : ExecEffect i s s
  | called (a : Nat) (hi : i = .call a) : ExecEffect i s ((push s.pc s).setPc a)
  | returned (rest : List Nat) (v : Nat) (hs : s.stack = rest ++ [v]) (hi : i = .ret) :
      ExecEffect i s ((s.setStack rest).setPc v)
  | halted (r : HaltReason) (hi : (i = .halt ∧ r = .haltInstruction) ∨
      (i = .ret ∧ s.stack = [] ∧ r = .returnOnEmptyStack)) : ExecEffect i s (halt r s)
  | reported (op : Token) (args : List Token) (hi : i = .unrecognized op args) :
      ExecEffect i s (s.emit (.unrecognized { op := op, args := args }))

theorem orRaise_error {α : Type} (f : Fault) (s : State) (k : α → StepOutcome) :
    orRaise (.error f) s k = .next (takeFault f s) := rfl

theorem orRaise_ok {α : Type} (a : α) (s : State) (k : α → StepOutcome) : orRaise (.ok a) s k = k a := rfl

/-- Writing back a result, as an effect of LOAD, ADD or SUB. -/
theorem writeBack_effect {i : Instr} {d : Nat} (z : Int) (s : State)
    (hi : (∃ m, i = .load d m) ∨ (∃ a b, i = .add d a b) ∨ (∃ a b, i = .sub d a b)) :
    ∃ t, writeBack d z s = .next t ∧ ExecEffect i s t := by
  rcases writeBack_spec d z s with ⟨v, -, hv, hd, e⟩ | ⟨f, hf, e⟩
  · exact ⟨_, e, .wroteReg d v hd hv hi⟩
  · exact ⟨_, e, .faulted f hf (by rcases hi with ⟨m, rfl⟩ | ⟨a, b, rfl⟩ | ⟨a, b, rfl⟩ <;> trivial)⟩

/-- Reading two source registers, as ADD and SUB do, then going on with an effect. -/
theorem readTwo_effect {i : Instr} (a b : Nat) (s : State) (k : Value → Value → StepOutcome) (hi : MayFault i)
    (hk : ∀ u v, ∃ t, k u v = .next t ∧ ExecEffect i s t) :
    ∃ t, orRaise (readReg a s) s (fun u => orRaise (readReg b s) s (k u)) = .next t ∧
      ExecEffect i s t := by
  rcases readReg_spec a s with ⟨-, e⟩ | ⟨-, e⟩
  · rcases readReg_spec b s with ⟨-, e'⟩ | ⟨-, e'⟩
    · simp only [e, e', orRaise_ok]
      exact hk _ _
    · exact ⟨_, by simp only [e, e', orRaise_ok, orRaise_error], .faulted (.invalidRegister b) trivial hi⟩
  · exact ⟨_, by simp only [e, orRaise_error], .faulted (.invalidRegister a) trivial hi⟩

theorem exec_effect (i : Instr) (s : State) : ∃ t, exec i s = .next t ∧ ExecEffect i s t := by
  cases i with
  | load rd imm =>
    simp only [exec, execLoad, aluThen_load]
    exact writeBack_effect _ s (.inl ⟨imm, rfl⟩)
  | add rd a b =>
    simp only [exec, execAdd, aluThen_add]
    exact readTwo_effect a b s _ trivial fun u v => writeBack_effect _ s (.inr (.inl ⟨a, b, rfl⟩))
  | sub rd a b =>
    simp only [exec, execSub, aluThen_sub]
    exact readTwo_effect a b s _ trivial fun u v => writeBack_effect _ s (.inr (.inr ⟨a, b, rfl⟩))
  | store r a =>
    simp only [exec, execStore]
    rcases readReg_spec r s with ⟨hr, e⟩ | ⟨-, e⟩
    · rcases memWrite_spec a (s.regs.getD r 0) s with ⟨ha, e'⟩ | ⟨-, e'⟩
      · exact ⟨_, by simp only [e, e', orRaise_ok], .stored r a hr ha rfl⟩
      · exact ⟨_, by simp only [e, e', orRaise_ok, orRaise_error], .faulted (.invalidAddress a) trivial trivial⟩
    · exact ⟨_, by simp only [e, orRaise_error], .faulted (.invalidRegister r) trivial trivial⟩
  | input d =>
    simp only [exec, execInput]
    obtain ⟨z, ins, n, e, -⟩ := ioIn_spec s
    rcases writeBack_spec d (ioIn s).1 (ioIn s).2 with ⟨v, hz, hv, hd, e'⟩ | ⟨f, hf, e'⟩
    · refine ⟨_, e', ?_⟩
      have hp : (ioIn s).2.params = s.params := by rw [e]
      have hr : (ioIn s).2.regs = s.regs := by rw [e]
      rw [hr]
      rw [hp] at hv hd
      exact .wroteInput d v hd hv hz.symm rfl
    · exact ⟨_, e', .inputFaulted d f hf rfl⟩
  | output r =>
    simp only [exec, execOutput, ioOut]
    rcases readReg_spec r s with ⟨hr, e⟩ | ⟨-, e⟩
    · exact ⟨_, by simp only [e, orRaise_ok], .delivered r hr rfl⟩
    · exact ⟨_, by simp only [e, orRaise_error], .faulted (.invalidRegister r) trivial trivial⟩
  | jump a => exact ⟨_, rfl, .jumped a (.inl rfl)⟩
  | jumpz a =>
    cases h : registerZeroIsZero s with
    | true => exact ⟨_, by simp only [exec, execJumpz, h, if_true], .jumped a (.inr ⟨rfl, h⟩)⟩
    | false => exact ⟨_, by simp [exec, execJumpz, h], .fellThrough a rfl h⟩
  | call a => exact ⟨_, rfl, .called a rfl⟩
  | ret =>
    simp only [exec, execRet]
    rcases pop_spec s with ⟨h, e⟩ | ⟨rest, v, h, e⟩
    · exact ⟨_, by rw [e], .halted _ (.inr ⟨rfl, h, rfl⟩)⟩
    · exact ⟨_, by rw [e], .returned rest v h rfl⟩
  | halt => exact ⟨_, rfl, .halted _ (.inl ⟨rfl, rfl⟩)⟩
  | unrecognized op args => exact ⟨_, rfl, .reported op args rfl⟩

end Sys2Proof.Machine
end

