-- ==== Sys2Proof/Laws/PerInstr.lean ====
section
/-! SUPPORT. The family EncodedLine: the encoder's line of a well-formed instruction is a line the tokeniser
can produce (30_encoding.md R80, R81), one lemma per constructor. -/

namespace Sys2Proof.Laws.EncodedLine

/-- The line of a well-formed instruction is proper. -/
def Statement (i : Instr) : Prop := i.wf = true → (encode i).wf = true

/-- A mnemonic with proper operand tokens is a proper line. -/
theorem line_wf (o : Opcode) (args : List Token) (h : args.all Token.wf = true) :
    Line.wf { op := o.mnemonic, args := args } = true := by
  simp [Line.wf, mnemonic_wf, h]

theorem load (rd imm : Nat) : Statement (.load rd imm) := fun _ =>
  line_wf .load _ (by simp [regToken_wf, litToken_wf])
theorem add (rd rs1 rs2 : Nat) : Statement (.add rd rs1 rs2) := fun _ =>
  line_wf .add _ (by simp [regToken_wf])
theorem sub (rd rs1 rs2 : Nat) : Statement (.sub rd rs1 rs2) := fun _ =>
  line_wf .sub _ (by simp [regToken_wf])
theorem store (rs addr : Nat) : Statement (.store rs addr) := fun _ =>
  line_wf .store _ (by simp [regToken_wf, litToken_wf])
theorem input (rd : Nat) : Statement (.input rd) := fun _ => line_wf .input _ (by simp [regToken_wf])
theorem output (rs : Nat) : Statement (.output rs) := fun _ => line_wf .output _ (by simp [regToken_wf])
theorem jump (addr : Nat) : Statement (.jump addr) := fun _ => line_wf .jump _ (by simp [litToken_wf])
theorem jumpz (addr : Nat) : Statement (.jumpz addr) := fun _ => line_wf .jumpz _ (by simp [litToken_wf])
theorem call (addr : Nat) : Statement (.call addr) := fun _ => line_wf .call _ (by simp [litToken_wf])
theorem ret : Statement .ret := fun _ => line_wf .ret _ rfl
theorem halt : Statement .halt := fun _ => line_wf .halt _ rfl
theorem unrecognized (op : Token) (args : List Token) : Statement (.unrecognized op args) := fun h => by
  simp only [Instr.wf, Bool.and_eq_true] at h
  exact h.2

end Sys2Proof.Laws.EncodedLine
end

