-- ==== Sys2Proof/Laws/Step.lean ====
section
/-! SUPPORT. What one step can do, said once: the run is over, the program is over, the line is malformed,
or a meaning ran. And the induction over runs, packaged once. -/

namespace Sys2Proof.Machine

variable {s t : State}

theorem reportIfHalted_eq (t : State) :
    (∃ r, t.status = .halted r ∧ reportIfHalted t = t.emit (.registers t.regs)) ∨
    ((∀ r, t.status ≠ .halted r) ∧ reportIfHalted t = t) := by
  unfold reportIfHalted
  cases h : t.status with
  | halted r => exact .inl ⟨r, rfl, rfl⟩
  | running => exact .inr ⟨by simp, rfl⟩
  | faulted f => exact .inr ⟨by simp, rfl⟩

/-! The fields the final report leaves. -/

@[simp] theorem reportIfHalted_params (t : State) : (reportIfHalted t).params = t.params := by
  unfold reportIfHalted; split <;> rfl
@[simp] theorem reportIfHalted_regs (t : State) : (reportIfHalted t).regs = t.regs := by
  unfold reportIfHalted; split <;> rfl
@[simp] theorem reportIfHalted_pc (t : State) : (reportIfHalted t).pc = t.pc := by
  unfold reportIfHalted; split <;> rfl
@[simp] theorem reportIfHalted_ir (t : State) : (reportIfHalted t).ir = t.ir := by
  unfold reportIfHalted; split <;> rfl
@[simp] theorem reportIfHalted_stack (t : State) : (reportIfHalted t).stack = t.stack := by
  unfold reportIfHalted; split <;> rfl
@[simp] theorem reportIfHalted_status (t : State) : (reportIfHalted t).status = t.status := by
  unfold reportIfHalted; split <;> rfl
@[simp] theorem reportIfHalted_mem (t : State) : (reportIfHalted t).mem = t.mem := by
  unfold reportIfHalted; split <;> rfl
@[simp] theorem reportIfHalted_segtab (t : State) : (reportIfHalted t).segtab = t.segtab := by
  unfold reportIfHalted; split <;> rfl
@[simp] theorem reportIfHalted_registry (t : State) : (reportIfHalted t).registry = t.registry := by
  unfold reportIfHalted; split <;> rfl
@[simp] theorem reportIfHalted_program (t : State) : (reportIfHalted t).program = t.program := by
  unfold reportIfHalted; split <;> rfl
@[simp] theorem reportIfHalted_inputs (t : State) : (reportIfHalted t).inputs = t.inputs := by
  unfold reportIfHalted; split <;> rfl
@[simp] theorem reportIfHalted_draws (t : State) : (reportIfHalted t).draws = t.draws := by
  unfold reportIfHalted; split <;> rfl
@[simp] theorem reportIfHalted_ioTrace (t : State) : (reportIfHalted t).ioTrace = t.ioTrace := by
  unfold reportIfHalted; split <;> rfl

/-- The state that a fetched line's meaning starts from. -/
abbrev fetched (l : Line) (s : State) : State := (s.setIr (.line l)).setPc (s.pc + 1)

theorem step_of_over (h : s.status ≠ .running) : step s = .next s := by
  unfold step cycle
  cases hs : s.status with
  | running => exact absurd hs h
  | halted r => rfl
  | faulted f => rfl

theorem step_of_end (h : s.status = .running) (hp : s.program[s.pc]? = none) :
    step s = .next ((halt .endOfProgram (s.setIr .endMarker)).emit (.registers s.regs)) := by
  simp only [step, cycle, h, fetch, hp]
  rfl

theorem step_of_malformed {l : Line} {e : DecodeError} (h : s.Fetches l) (hd : decode l = .error e) :
    step s = .next (takeFault (.malformedInstruction l s.pc) (fetched l s)) := by
  obtain ⟨hr, hl⟩ := h
  simp only [step, cycle, hr, fetch, hl, decodeExecute, State.setPc_ir, State.setIr_ir, runLine, hd]
  rfl

theorem step_of_instr {l : Line} {i : Instr} (h : s.Fetches l) (hd : decode l = .ok i) :
    step s = finishCycle (exec i (fetched l s)) := by
  obtain ⟨hr, hl⟩ := h
  simp only [step, cycle, hr, fetch, hl, decodeExecute, State.setPc_ir, State.setIr_ir, runLine, hd]

/-- The four ways a step goes. -/
theorem step_cases (s : State) :
    (s.status ≠ .running ∧ step s = .next s) ∨
    (s.status = .running ∧ s.program.length ≤ s.pc ∧
      step s = .next ((halt .endOfProgram (s.setIr .endMarker)).emit (.registers s.regs))) ∨
    (∃ l e, s.Fetches l ∧ decode l = .error e ∧
      step s = .next (takeFault (.malformedInstruction l s.pc) (fetched l s))) ∨
    (∃ l i u, s.Fetches l ∧ decode l = .ok i ∧ exec i (fetched l s) = .next u ∧
      ExecEffect i (fetched l s) u ∧ step s = .next (reportIfHalted u)) := by
  by_cases hr : s.status = .running
  · cases hl : s.program[s.pc]? with
    | none => exact .inr (.inl ⟨hr, by simpa using hl, step_of_end hr hl⟩)
    | some l =>
      cases hd : decode l with
      | error e => exact .inr (.inr (.inl ⟨l, e, ⟨hr, hl⟩, hd, step_of_malformed ⟨hr, hl⟩ hd⟩))
      | ok i =>
        obtain ⟨u, hu, he⟩ := exec_effect i (fetched l s)
        refine .inr (.inr (.inr ⟨l, i, u, ⟨hr, hl⟩, hd, hu, he, ?_⟩))
        rw [step_of_instr ⟨hr, hl⟩ hd, hu]
        rfl
  · exact .inl ⟨hr, step_of_over hr⟩

/-- The line a state fetches is one line, and decodes one way. -/
theorem fetchesInstr_unique {i j : Instr} {l : Line} (h : s.Fetches l) (hd : decode l = .ok i)
    (hj : s.FetchesInstr j) : j = i := by
  obtain ⟨m, ⟨-, hm⟩, hdm⟩ := hj
  obtain rfl : l = m := Option.some.inj (h.2.symm.trans hm)
  exact Except.ok.inj (hdm.symm.trans hd)

/-- A property that every step keeps holds after every run. -/
theorem runFor_keeps {P : State → Prop} (hP : ∀ s t, P s → step s = .next t → P t) :
    ∀ (k : Nat) (s t : State), P s → runFor k s = .next t → P t := by
  intro k
  induction k with
  | zero =>
    intro s t hs h
    cases h
    exact hs
  | succ k ih =>
    intro s t hs h
    rw [runFor] at h
    cases hu : step s with
    | next u => rw [hu] at h; exact ih u t (hP s u hs hu) h
    | fault f => rw [hu] at h; cases h
    | refused r => rw [hu] at h; cases h

/-- `runFor` is the host's own iteration of the step. -/
theorem runFor_eq_run (k : Nat) (s : State) : runFor k s = Host.Core.run core k s := by
  induction k generalizing s with
  | zero => rfl
  | succ k ih =>
    have e : core.step s = step s := rfl
    cases h : step s with
    | next t =>
      simp only [runFor, Host.Core.run, e, h]
      exact ih t
    | fault f => simp only [runFor, Host.Core.run, e, h]; rfl
    | refused r => simp only [runFor, Host.Core.run, e, h]; rfl

end Sys2Proof.Machine
end

