-- ==== Sys2Proof/Tests/Slice0.lean ====
section
/-! SUPPORT. Tests on fixed values, expected results from spec/95_test_vectors.md and the worked examples
of the rules; the smoke test of the well-formedness checks; and for each statement with hypotheses a
witness that meets them, at the ends of their ranges. -/

namespace Sys2Proof.Tests

open Sys2Proof.Machine

/-! ### Helpers -/

/-- The line a text spells; the empty op where it has no token. -/
def line (s : String) : Line := (lineOfText s.toList).getD { op := [], args := [] }

/-- Decode a text line. -/
def read (s : String) : Option Instr := (decode (line s)).toOption

/-- The launch state over one line at position 0, with the given registers. -/
def one (s : String) (regs : List Value := [0, 0, 0, 0, 0, 0, 0, 0]) : State :=
  State.launch Config.hardware [] [] [] regs [line s] []

/-- The same with VALUE_BITS = some 8. -/
def narrow (s : String) : State := { one s with params := ⟨8, 1024, some 8⟩ }

/-- The state after one step. -/
def after (s : State) : Option State :=
  match step s with
  | .next t => some t
  | .fault _ => none
  | .refused _ => none

/-- The state a step gives, the state itself where it gives none. -/
def stepped (s : State) : State := (after s).getD s

/-- `pc`, registers and status after one step. -/
def seen (s : State) : Option (Nat × List Value × Status) :=
  (after s).map (fun t => (t.pc, t.regs, t.status))

/-! ### Decoding: one line a constructor, written out from the formats of R83 and R89 -/

theorem test_decode_load : decode ⟨['L', 'O', 'A', 'D'], [['R', '1'], ['1', '0']]⟩ = .ok (.load 1 10) := by rfl
theorem test_decode_add :
    decode ⟨['A', 'D', 'D'], [['R', '3'], ['R', '1'], ['R', '2']]⟩ = .ok (.add 3 1 2) := by rfl
theorem test_decode_sub :
    decode ⟨['S', 'U', 'B'], [['R', '3'], ['R', '2'], ['R', '1']]⟩ = .ok (.sub 3 2 1) := by rfl
theorem test_decode_store :
    decode ⟨['S', 'T', 'O', 'R', 'E'], [['R', '3'], ['1', '0', '0']]⟩ = .ok (.store 3 100) := by rfl
theorem test_decode_input : decode ⟨['I', 'N', 'P', 'U', 'T'], [['R', '1']]⟩ = .ok (.input 1) := by rfl
theorem test_decode_output : decode ⟨['O', 'U', 'T', 'P', 'U', 'T'], [['R', '3']]⟩ = .ok (.output 3) := by rfl
theorem test_decode_jump : decode ⟨['J', 'U', 'M', 'P'], [['3']]⟩ = .ok (.jump 3) := by rfl
theorem test_decode_jumpz : decode ⟨['J', 'U', 'M', 'P', 'Z'], [['4']]⟩ = .ok (.jumpz 4) := by rfl
theorem test_decode_call : decode ⟨['C', 'A', 'L', 'L'], [['5']]⟩ = .ok (.call 5) := by rfl
theorem test_decode_ret : decode ⟨['R', 'E', 'T'], []⟩ = .ok .ret := by rfl
theorem test_decode_halt : decode ⟨['H', 'A', 'L', 'T'], []⟩ = .ok .halt := by rfl
theorem test_decode_unrecognized :
    decode ⟨['M', 'U', 'L'], [['R', '2'], [',']]⟩ = .ok (.unrecognized ['M', 'U', 'L'] [['R', '2'], [',']]) := by
  rfl

/-- V-LAS and R85, R86: leading zeros, no size limit, an index that is not compared with N. -/
theorem test_read_literals :
    read "LOAD R1 007" = some (.load 1 7) ∧
    read "  LOAD\tR7   340282366920938463463374607431768211456 " = some (.load 7 (2 ^ 128)) ∧
    read "ADD R1 R9 R10" = some (.add 1 9 10) := by decide

/-- R92: each of these spellings is malformed. -/
theorem test_malformed_spellings :
    (["LOAD R1", "LOAD R1 2 3", "LOAD R1 -5", "LOAD r1 5", "LOAD R1, 5", "LOAD 1 5", "LOAD R 5", "ADD R1 R2",
      "STORE R1 0 5", "STORE R1 R2", "STORE R1 0x10", "INPUT 1", "JUMP", "JUMP 3 4", "JUMP R2", "CALL",
      "RET 2", "HALT now"].map read).all (fun i => i.isNone) = true := by decide

/-- R84, V-HU: a lower-case mnemonic is unrecognized, and its operands are not examined. -/
theorem test_unrecognized_spellings :
    read "halt" = some (.unrecognized ['h', 'a', 'l', 't'] []) ∧
    read "FOO R99 -1 ,," = some (.unrecognized ['F', 'O', 'O'] [['R', '9', '9'], ['-', '1'], [',', ',']]) := by
  decide

/-- Assumption 11: the bytes of the text `LOAD R1 10`, first character lowest. -/
theorem test_table_word : decodeTableWord 80 0x30312031522044414F4C = some (.load 1 10) := by decide

/-! ### Well-formedness: an ill-formed term for each check -/

theorem test_wf_refuses :
    Token.wf [] = false ∧ Token.wf ['A', ' ', 'B'] = false ∧ Token.wf ['\t'] = false ∧
    Line.wf ⟨[], []⟩ = false ∧ Line.wf ⟨['H', 'A', 'L', 'T'], [[]]⟩ = false ∧
    Instr.wf (.unrecognized ['A', 'D', 'D'] []) = false ∧ Instr.wf (.unrecognized [] []) = false ∧
    Instr.wf (.unrecognized ['N', 'O', 'P'] [[' ']]) = false ∧
    Params.isValue ⟨8, 1024, some 8⟩ 256 = false ∧ Params.wf ⟨0, 1024, none⟩ = false ∧
    Params.segtabWf Config.hardware [⟨1000, 25⟩] = false ∧ programWf [line "HALT", ⟨[], []⟩] = false := by decide

/-- Assumption 29: a launch refuses a program with an instruction that has an empty token 0. -/
theorem test_launch_refuses_empty_token :
    hostStep (.construct [⟨[], []⟩] Config.regInit []) State.reset = .refused .badLaunch ∧
    (processStart Config.hardware [] [] [] Config.regInit [⟨[], []⟩] []).toOption = none := by decide

/-- A memory list out of order, with a repeat, or with an unlisted value is not canonical. -/
theorem test_memory_wf_refuses :
    ¬ Memory.wf [(2, 1), (1, 1)] ∧ ¬ Memory.wf [(1, 1), (1, 2)] ∧ ¬ Memory.wf [(1, 0)] := by decide

/-! ### Instructions: vectors of spec/95_test_vectors.md, one step each -/

/-- V-LAS: `LOAD R1 10`. -/
theorem test_load : seen (one "LOAD R1 10") = some (1, [0, 10, 0, 0, 0, 0, 0, 0], .running) := by decide
/-- V-LAS: the register index is checked at the write; VALUE_BITS = some 8 overflows at 256. -/
theorem test_load_faults :
    seen (one "LOAD R8 1") = some (1, [0, 0, 0, 0, 0, 0, 0, 0], .faulted (.invalidRegister 8)) ∧
    (seen (narrow "LOAD R1 256")).map (·.2.2) = some (.faulted (.valueOverflow 256)) ∧
    (seen (narrow "LOAD R1 255")).map (·.2.1) = some [0, 255, 0, 0, 0, 0, 0, 0] := by decide
/-- V-LAS: `ADD R3 R1 R2` and `ADD R1 R1 R1`. -/
theorem test_add :
    seen (one "ADD R3 R1 R2" [0, 10, 20, 0, 0, 0, 0, 0]) = some (1, [0, 10, 20, 30, 0, 0, 0, 0], .running) ∧
    (seen (one "ADD R1 R1 R1" [0, 21, 0, 0, 0, 0, 0, 0])).map (·.2.1) = some [0, 42, 0, 0, 0, 0, 0, 0] := by
  decide
/-- V-LAS: the first source out of range is reported, and the destination only after the sum. -/
theorem test_add_faults :
    (seen (one "ADD R1 R9 R10")).map (·.2.2) = some (.faulted (.invalidRegister 9)) ∧
    (seen (one "ADD R9 R1 R2")).map (·.2.2) = some (.faulted (.invalidRegister 9)) := by decide
/-- V-LAS: `SUB R3 R1 R2` with 7 - 5. -/
theorem test_sub :
    seen (one "SUB R3 R1 R2" [0, 7, 5, 0, 0, 0, 0, 0]) = some (1, [0, 7, 5, 2, 0, 0, 0, 0], .running) := by decide
/-- V-LAS: a negative result faults, leaves R3, and comes before the destination check. -/
theorem test_sub_negative :
    seen (one "SUB R3 R1 R2" [0, 5, 7, 4, 0, 0, 0, 0]) =
      some (1, [0, 5, 7, 4, 0, 0, 0, 0], .faulted (.negativeValue (-2))) ∧
    (seen (one "SUB R9 R0 R1" [0, 5, 0, 0, 0, 0, 0, 0])).map (·.2.2) = some (.faulted (.negativeValue (-5))) := by
  decide
/-- V-ST: the last cell, and a zero over a written cell. -/
theorem test_store :
    (after (one "STORE R1 1023" [0, 1, 0, 0, 0, 0, 0, 0])).map (fun t => (t.mem.get 1023, t.status)) =
      some (1, .running) ∧
    (after { one "STORE R0 5" with mem := [(5, 9)] }).map (·.mem) = some [] := by decide
/-- V-ST: one past the last cell; the register is read before the address is checked. -/
theorem test_store_faults :
    (after (one "STORE R1 1024")).map (fun t => (t.mem, t.status)) = some ([], .faulted (.invalidAddress 1024)) ∧
    (after (one "STORE R9 5000")).map (·.status) = some (.faulted (.invalidRegister 9)) := by decide
/-- V-IO: `INPUT R1` with 4. -/
theorem test_input :
    (after { one "INPUT R1" with inputs := [4, 7] }).map (fun t => (t.regs, t.inputs, t.ioTrace)) =
      some ([0, 4, 0, 0, 0, 0, 0, 0], [7], [.input 4]) := by decide
/-- V-IO: a negative input and an index out of range fault after the input is consumed. -/
theorem test_input_faults :
    (after { one "INPUT R1" with inputs := [-3] }).map (fun t => (t.status, t.ioTrace, t.inputs)) =
      some (.faulted (.negativeValue (-3)), [.input (-3)], []) ∧
    (after { one "INPUT R9" with inputs := [3] }).map (fun t => (t.status, t.ioTrace)) =
      some (.faulted (.invalidRegister 9), [.input 3]) := by decide
/-- V-IO: `OUTPUT R3`, and `OUTPUT R8`, which delivers nothing. -/
theorem test_output :
    (after (one "OUTPUT R3" [0, 0, 0, 13, 0, 0, 0, 0])).map (·.ioTrace) = some [.output 13] ∧
    (after (one "OUTPUT R8")).map (fun t => (t.ioTrace, t.status)) =
      some ([], .faulted (.invalidRegister 8)) := by decide
/-- V-CT: a target outside the program is no fault. -/
theorem test_jump : (after (one "JUMP 100")).map (fun t => (t.pc, t.status)) = some (100, .running) := by decide
/-- V-CT: only register 0 matters. -/
theorem test_jumpz :
    (after (one "JUMPZ 7" [0, 5, 0, 0, 0, 0, 0, 0])).map (·.pc) = some 7 ∧
    (after (one "JUMPZ 7" [2 ^ 70, 0, 0, 0, 0, 0, 0, 0])).map (·.pc) = some 1 := by decide
/-- V-CT: the pushed position is the one after the CALL, on top of the stack. -/
theorem test_call :
    (after { one "CALL 2" with stack := [3] }).map (fun t => (t.pc, t.stack)) = some (2, [3, 1]) := by decide
/-- V-CT: RET pops the top. -/
theorem test_ret :
    (after { one "RET" with stack := [3, 10] }).map (fun t => (t.pc, t.stack)) = some (10, [3]) := by decide
/-- V-CT: RET on an empty stack halts, with the register report. -/
theorem test_ret_empty :
    (after (one "RET")).map (fun t => (t.pc, t.status, t.reports)) =
      some (1, .halted .returnOnEmptyStack, [.registers [0, 0, 0, 0, 0, 0, 0, 0]]) := by decide
/-- V-HU: HALT leaves the stack and reports the registers. -/
theorem test_halt :
    (after { one "HALT" with stack := [9] }).map (fun t => (t.pc, t.status, t.stack, t.reports)) =
      some (1, .halted .haltInstruction, [9], [.registers [0, 0, 0, 0, 0, 0, 0, 0]]) := by decide
/-- V-HU: an unrecognized opcode is reported and the run continues. -/
theorem test_unrecognized :
    (after (one "NOP")).map (fun t => (t.pc, t.status, t.reports)) =
      some (1, .running, [.unrecognized ⟨['N', 'O', 'P'], []⟩]) := by decide
/-- V-HU: an empty program ends at once. -/
theorem test_empty_program :
    (after State.reset).map (fun t => (t.pc, t.ir, t.status)) = some (0, .endMarker, .halted .endOfProgram) := by
  decide
/-- R208, R211: a malformed line's fault and report. -/
theorem test_malformed :
    (after (one "JUMP")).map (fun t => (t.pc, t.status, t.reports)) =
      some (1, .faulted (.malformedInstruction ⟨['J', 'U', 'M', 'P'], []⟩ 0),
        [.fault (.malformedInstruction ⟨['J', 'U', 'M', 'P'], []⟩ 0) (.line ⟨['J', 'U', 'M', 'P'], []⟩) 0]) := by
  decide
/-- A word placed by `withFetchWord` runs as the first instruction after reset. -/
theorem test_fetch_word :
    seen (State.reset.withFetchWord 80 0x30312031522044414F4C) =
      some (1, [0, 10, 0, 0, 0, 0, 0, 0], .running) := by decide

/-! ### Units -/

/-- V-SEG, with that section's own segment table. -/
def segments : State :=
  State.launch Config.hardware [⟨0, 256⟩, ⟨256, 512⟩, ⟨1000, 24⟩, ⟨500, 0⟩] [] [] Config.regInit [] []

theorem test_segments :
    (segTranslate 1 511 segments).toOption = some 767 ∧ (segTranslate 2 23 segments).toOption = some 1023 ∧
    hostStep (.readSegmented 1 512) segments = .rejected (.invalidOffset 1 512) ∧
    hostStep (.readSegmented 3 0) segments = .rejected (.invalidOffset 3 0) ∧
    hostStep (.readSegmented 4 9999) segments = .rejected (.invalidSegment 4) := by decide

/-- V-ALU. -/
theorem test_alu :
    aluExecute [] aluAdd (2 ^ 64) (some (2 ^ 64)) = .value (2 ^ 65) ∧ aluExecute [] aluSub 3 (some 5) = .value (-2) ∧
    aluExecute [] aluLoad 7 (some 99) = .value 7 ∧ aluExecute [] aluHalt 0 none = .nopSentinel ∧
    aluExecute [] ['a', 'd', 'd'] 2 (some 3) = .unknownOperation ['a', 'd', 'd'] := by decide

/-- V-LAS, PR7: whatever function shadows ADD, its value at 6 and 7 is what R3 receives. -/
theorem test_custom_add :
    exec (.add 3 1 2) { one "ADD R3 R1 R2" [0, 6, 7, 0, 0, 0, 0, 0] with registry := [(aluAdd, 5)] } =
      writeBack 3 (Config.customOp 5 6 (some 7))
        { one "ADD R3 R1 R2" [0, 6, 7, 0, 0, 0, 0, 0] with registry := [(aluAdd, 5)] } := rfl

/-- V-ALU: `bintext` and the binary-text variant of ADD (R13, R138). -/
theorem test_bintext :
    bintext 0 = "0".toList ∧ bintext 5 = "101".toList ∧ bintext 1024 = "10000000000".toList ∧
    aluBintext [] aluAdd "1010".toList "10100".toList = some "11110".toList ∧
    aluBintext [] aluSub "11".toList "101".toList = none := by decide

/-- R93, R95, D10: blank lines, mnemonics in another case, comments, labels, directives and expressions are
refused by the transcriber, an opcode by the assembler; operands of the syntax are not. -/
theorem test_load_path :
    (transcribe 0 ["HALT".toList, " ".toList]).toOption = none ∧
    (["Halt", "; note", "HALT ; note", "loop:", ".org 4", "JUMP loop", "LOAD R1 2+3"].map
      (fun t => (transcribeLine 0 t.toList).toOption)).all (fun l => l.isNone) = true ∧
    (transcribe 0 ["JUMP".toList, "NOP".toList]).toOption = some [line "JUMP", line "NOP"] ∧
    (transcribe 0 [" LOAD  R1 10 ".toList, "nop".toList]).toOption = some [line "LOAD R1 10", line "nop"] ∧
    (assemble 0 [line "JUMP", line "STORE R9 5000"]).toOption = some [line "JUMP", line "STORE R9 5000"] ∧
    (assemble 0 [line "HALT", line "NOP"]).toOption = none := by decide

/-! ### Witnesses: states and operands that meet the hypotheses of each statement -/

/-- A state in a run, its first cycle over, with inputs, memory, a call on the stack and a program. -/
def busy : State :=
  { State.launch Config.hardware [⟨1000, 24⟩] [(100, 30)] [(['M', 'U', 'L'], 1)] [5, 7, 0, 0, 0, 0, 0, 9]
      [line "CALL 2", line "HALT", line "RET"] [4] with pc := 2, ir := .line (line "CALL 2"), stack := [1] }

/-- The launch state of that program. -/
def launched : State := State.launch Config.hardware [⟨1000, 24⟩] [(100, 30)] [] [5, 7, 0, 0, 0, 0, 0, 9]
  [line "CALL 2", line "HALT", line "RET"] [4]

/-- The same after an earlier CPU instance has reported an unrecognized opcode. -/
def reported : State := { launched with reports := [.unrecognized (line "X")] }

theorem busy_wf : busy.Wf :=
  ⟨by decide, by decide, by decide, by decide, by decide, by decide, by decide, by decide⟩

theorem launched_wf : launched.Wf :=
  ⟨by decide, by decide, by decide, by decide, by decide, by decide, by decide, by decide⟩

theorem witness_decodeReadsBackEncode :
    Instr.wf (.load 0 0) = true ∧ Instr.wf (.unrecognized ['N', 'O', 'P'] [['-']]) = true := by decide
theorem witness_tokeniserCutsProperTokens :
    (['R'] : Token) ∈ tokenise " R\t".toList ∧ Line.wf (line "HALT") = true ∧ Line.wf (line "X y") = true := by decide
theorem witness_operandTokensAreDecimal :
    parseLit ['0'] = some 0 ∧ '9'.toNat = '0'.toNat + 9 ∧ (9 : Nat) < 10 ∧ parseReg ['R', '7'] = some 7 := by decide
theorem witness_operandCountIsCheckedFirst :
    Opcode.ofToken (line "RET 2").op = some .ret ∧ (line "RET 2").args.length ≠ Opcode.ret.format.operands ∧
    Opcode.ofToken (line "ADD R1 R2").op = some .add ∧
    (line "ADD R1 R2").args.length ≠ Opcode.add.format.operands ∧
    Opcode.ofToken (line "JUMP x").op = some .jump ∧
    (line "JUMP x").args.length = Opcode.jump.format.operands := by decide
theorem witness_decodeKeepsTheRow :
    Line.wf (line "RET") = true ∧ read "RET" = some .ret ∧ Line.wf (line "NOP 1") = true ∧
    read "NOP 1" = some (.unrecognized ['N', 'O', 'P'] [['1']]) ∧
    parseReg "R1".toList = some 1 ∧ parseReg "R007".toList = some 7 ∧ parseReg "1".toList = none ∧
    parseReg "R".toList = none ∧ parseLit "007".toList = some 7 ∧ parseLit "0".toList = some 0 ∧
    parseLit "0x10".toList = none ∧ parseLit "R2".toList = none := by decide
theorem witness_binaryText :
    (0 : Nat) = 0 ∧ (0 : Nat) < 1 ∧ aluExecute [] aluSub (3 : Nat) (some ((3 : Nat) : Int)) = .value ((0 : Nat) : Int) ∧
    aluExecute [] aluSub (3 : Nat) (some ((4 : Nat) : Int)) = .value (-1) ∧ (-1 : Int) < 0 := by decide
theorem witness_processStart :
    (⟨1000, 25⟩ : SegDescriptor) ∈ [(⟨1000, 25⟩ : SegDescriptor)] ∧ Config.hardware.memorySize < 1000 + 25 ∧
    processStart Config.hardware [⟨1000, 24⟩] [(1023, 9)] [] Config.regInit [line "HALT"] [4] =
      .ok (State.launch Config.hardware [⟨1000, 24⟩] [(1023, 9)] [] Config.regInit [line "HALT"] [4]) ∧
    (∀ d ∈ [(⟨1000, 24⟩ : SegDescriptor)], d.base + d.limit ≤ Config.hardware.memorySize) ∧
    Config.hardware.wf = true ∧ memInitWf Config.hardware [(1023, 9)] = true ∧
    regInitWf Config.hardware Config.regInit = true ∧ programWf [line "HALT"] = true ∧
    memInitWf Config.hardware [(1024, 9)] = false ∧ regInitWf Config.hardware [0] = false ∧
    Params.wf ⟨0, 1024, none⟩ = false ∧ programWf [⟨[], []⟩] = false :=
  ⟨by decide, by decide, rfl, by decide⟩
theorem witness_constructionKeepsMemory :
    runInProgress launched = false ∧ regInitWf launched.params Config.regInit = true ∧ launched.Wf ∧
    programWf [line "HALT"] = true ∧ programWf [⟨['X'], [[]]⟩] = false ∧ regInitWf launched.params [] = false :=
  ⟨by decide, by decide, launched_wf, by decide, by decide, by decide⟩
theorem witness_hostPortCallsTheComponents :
    runInProgress busy = true ∧ runInProgress segments = false ∧
    ({ busy with status := .halted .haltInstruction } : State).status ≠ .running ∧
    (readReg 7 segments).toOption = some 0 ∧ (readReg 8 segments).toOption = none ∧
    (memRead 1023 segments).toOption = some 0 ∧ (memRead 1024 segments).toOption = none ∧
    (readSegmented 2 23 segments).toOption = some 0 ∧ (readSegmented 2 24 segments).toOption = none ∧
    segments.params.isValue 77 = true ∧ (writeReg 7 77 segments).toOption.isSome = true ∧
    (writeReg 8 77 segments).toOption = none ∧ (memWrite 1023 77 segments).toOption.isSome = true ∧
    (memWrite 1024 77 segments).toOption = none ∧ (writeSegmented 2 23 77 segments).toOption.isSome = true ∧
    (writeSegmented 4 0 77 segments).toOption = none ∧ aluExecute segments.registry aluLoad 7 none = .value 7 ∧
    aluExecute segments.registry ['M'] 7 none = .unknownOperation ['M'] ∧
    aluExecute segments.registry aluHalt 0 none = .nopSentinel ∧ segments.registry.find aluHalt = none ∧
    runInProgress (narrow "") = false ∧ (narrow "").params.isValue 256 = false := by decide
theorem witness_assembledPrograms :
    assemble 0 launched.program = .ok launched.program ∧
    runFor 2 launched = .next (stepped (stepped launched)) ∧
    reported.program = launched.program ∧ runFor 1 reported = .next (stepped reported) ∧
    Report.unrecognized (line "X") ∈ (stepped reported).reports ∧
    (∀ l ∈ launched.program, ∃ o : Opcode, o.mnemonic = l.op) ∧ ∀ o : Opcode, o.mnemonic ≠ (line "NOP").op := by
  refine ⟨rfl, rfl, rfl, rfl, .head _, ?_, fun o => by cases o <;> decide⟩
  intro l hl
  simp only [launched, State.launch, List.mem_cons, List.not_mem_nil, or_false] at hl
  rcases hl with rfl | rfl | rfl
  · exact ⟨.call, rfl⟩
  · exact ⟨.halt, rfl⟩
  · exact ⟨.ret, rfl⟩
theorem witness_transcriberGivesOneInstructionALine :
    transcribe 0 ["LOAD R1 10".toList, "nop".toList] = .ok [line "LOAD R1 10", line "nop"] := rfl
theorem witness_fetchReadsTheProgram :
    busy.pc < busy.program.length ∧ State.reset.program.length ≤ State.reset.pc ∧ State.reset.program = [] := by
  decide
theorem witness_stepRunsTheDecodedInstruction :
    launched.Fetches (line "CALL 2") ∧ decode (line "CALL 2") = .ok (.call 2) ∧
    (one "HALT").Fetches (line "HALT") ∧ decode (line "HALT") = .ok .halt :=
  ⟨⟨rfl, rfl⟩, rfl, ⟨rfl, rfl⟩, rfl⟩
theorem witness_withFetchWord :
    decodeTableWord 32 0x544C4148 = some .halt ∧ (0 : Nat) ≠ busy.pc ∧ 0 < busy.program.length := by decide
theorem witness_endOfProgramHalts :
    State.reset.status = .running ∧ State.reset.program.length ≤ State.reset.pc ∧ busy.pc < busy.program.length := by
  decide
theorem witness_endedRunStays : State.Over { busy with status := .halted .haltInstruction } := by
  intro h
  cases h
theorem witness_onlyThreeCasesHalt :
    busy.status = .running ∧ step busy = .next (stepped busy) ∧ busy.FetchesInstr .ret ∧
    (one "HALT").FetchesInstr .halt ∧ (one "RET").FetchesInstr .ret ∧ (one "RET").stack = [] ∧
    (one "X").FetchesInstr (.unrecognized ['X'] []) :=
  ⟨rfl, rfl, ⟨_, ⟨rfl, rfl⟩, rfl⟩, ⟨_, ⟨rfl, rfl⟩, rfl⟩, ⟨_, ⟨rfl, rfl⟩, rfl⟩, rfl, ⟨_, ⟨rfl, rfl⟩, rfl⟩⟩
theorem witness_pcAfterEachInstruction :
    launched.FetchesInstr (.call 2) ∧ step launched = .next (stepped launched) ∧
    (one "JUMP 0").FetchesInstr (.jump 0) ∧ (one "JUMPZ 7").FetchesInstr (.jumpz 7) ∧
    busy.FetchesInstr .ret ∧ busy.stack = [] ++ [1] ∧ (one "RET").stack = [] ∧
    (one "LOAD R8 1").FetchesInstr (.load 8 1) :=
  ⟨⟨_, ⟨rfl, rfl⟩, rfl⟩, rfl, ⟨_, ⟨rfl, rfl⟩, rfl⟩, ⟨_, ⟨rfl, rfl⟩, rfl⟩, ⟨_, ⟨rfl, rfl⟩, rfl⟩, rfl, rfl,
    ⟨_, ⟨rfl, rfl⟩, rfl⟩⟩
theorem witness_malformedLineFaults :
    (one "JUMP").Fetches (line "JUMP") ∧ decode (line "JUMP") = .error (.operandCount 1 0) ∧
    (one "LOAD R1 -5").Fetches (line "LOAD R1 -5") ∧ decode (line "LOAD R1 -5") = .error (.badOperand 2) :=
  ⟨⟨rfl, rfl⟩, rfl, ⟨rfl, rfl⟩, rfl⟩
theorem witness_faultsArePrecise :
    (one "LOAD R8 1").status = .running ∧ step (one "LOAD R8 1") = .next (stepped (one "LOAD R8 1")) ∧
    (stepped (one "LOAD R8 1")).status = .faulted (.invalidRegister 8) ∧
    ∀ rd, ¬ (one "LOAD R8 1").FetchesInstr (.input rd) := by
  refine ⟨rfl, rfl, rfl, ?_⟩
  rintro rd ⟨l, ⟨-, hl⟩, hd⟩
  cases hl
  cases hd
theorem witness_hostOnlyFaults : busy.Safe ∧ runFor 1 busy = .next (stepped busy) := by
  refine ⟨?_, rfl⟩
  intro f h
  cases h
theorem witness_registerAccess :
    segments.Wf ∧ 7 < segments.params.numRegs ∧ segments.params.numRegs ≤ 8 ∧
    segments.params.isValue 5 = true ∧ segments.registry.find aluLoad = none ∧ runInProgress segments = false :=
  ⟨⟨by decide, by decide, by decide, by decide, by decide, by decide, by decide, by decide⟩, by decide,
    by decide, by decide, by decide, by decide⟩
theorem witness_resultsAreChecked :
    (-1 : Int) < 0 ∧ (narrow "").params.valueBits = some 8 ∧ (2 : Int) ^ 8 ≤ 256 ∧
    ((255 : Nat) : Int) = 255 ∧ (narrow "").params.isValue 255 = true ∧ (narrow "").params.numRegs ≤ 8 ∧
    7 < (narrow "").params.numRegs := by decide
theorem witness_alu :
    Registry.find aluAdd [] = none ∧ Registry.find aluSub [] = none ∧ Registry.find aluLoad [] = none ∧
    Registry.find aluHalt [] = none ∧ Registry.find ['M'] [] = none ∧ ['M'] ≠ aluAdd ∧ ['M'] ≠ aluSub ∧
    ['M'] ≠ aluLoad ∧ ['M'] ≠ aluHalt ∧ runInProgress launched = false ∧
    launched.registry.find aluAdd = none := by decide
theorem witness_defineOperation :
    runInProgress launched = false ∧ runInProgress busy = true ∧ (['N'] : Token) ≠ aluAdd ∧
    step busy = .next (stepped busy) := ⟨by decide, by decide, by decide, rfl⟩
theorem witness_customOperations :
    Registry.find aluLoad [(aluLoad, 5)] = some 5 ∧ Registry.find aluAdd [(aluAdd, 5)] = some 5 ∧
    Registry.find aluSub [(aluSub, 5)] = some 5 ∧ readReg 0 busy = .ok 5 ∧ readReg 7 busy = .ok 9 :=
  ⟨rfl, rfl, rfl, rfl, rfl⟩
theorem witness_otherCustomOperations :
    aluHalt ≠ aluLoad ∧ aluHalt ≠ aluAdd ∧ aluHalt ≠ aluSub ∧ runFor 1 busy = .next (stepped busy) :=
  ⟨by decide, by decide, by decide, rfl⟩
theorem witness_load :
    (one "").registry.find aluLoad = none ∧ 7 < (one "").params.numRegs ∧ (one "").params.isValue 0 = true ∧
    (narrow "").registry.find aluLoad = none ∧ (narrow "").params.isValue 256 = false ∧
    (one "").params.numRegs ≤ 8 := by decide
theorem witness_add :
    busy.registry.find aluAdd = none ∧ 0 < busy.params.numRegs ∧ 7 < busy.params.numRegs ∧
    busy.regs[0]? = some 5 ∧ busy.regs[7]? = some 9 ∧ busy.params.isValue (5 + 9) = true ∧
    busy.params.valueBits = none ∧ busy.params.numRegs ≤ 8 ∧
    ({ narrow "" with regs := [255, 1, 0, 0, 0, 0, 0, 0] } : State).regs[0]? = some 255 ∧
    (narrow "").params.isValue (255 + 1) = false := by decide
theorem witness_sub :
    busy.registry.find aluSub = none ∧ busy.regs[1]? = some 7 ∧ busy.regs[0]? = some 5 ∧
    busy.params.isValue 7 = true ∧ (5 : Nat) ≤ 5 ∧ (5 : Nat) < 7 ∧ 0 < busy.params.numRegs ∧
    1 < busy.params.numRegs ∧ busy.params.numRegs ≤ 8 := by decide
theorem witness_sourceRegisters : busy.params.numRegs ≤ 8 ∧ 7 < busy.params.numRegs := by decide
theorem witness_memory :
    busy.mem.wf ∧ 1023 < busy.params.memorySize ∧ busy.params.memorySize ≤ 1024 ∧ (0 : Nat) ≠ 1023 := by decide
theorem witness_segments :
    segTranslate 2 23 segments = .ok 1023 ∧ segTranslate 3 0 segments = .error (.invalidOffset 3 0) ∧
    segments.segtab.length ≤ 4 ∧ segments.segtab[2]? = some ⟨1000, 24⟩ ∧ (24 : Nat) ≤ 24 ∧ (23 : Nat) < 24 ∧
    busy.Wf := ⟨rfl, rfl, by decide, rfl, by decide, by decide, busy_wf⟩
theorem witness_canonicalMemories :
    Memory.wf [(0, 1), (1023, 2)] ∧ Memory.wf (Memory.put 0 1 (Memory.put 1023 2 [])) ∧
    ∀ a, Memory.get a [(0, 1), (1023, 2)] = Memory.get a (Memory.put 0 1 (Memory.put 1023 2 [])) :=
  ⟨by decide, by decide, fun _ => rfl⟩
theorem witness_store :
    7 < busy.params.numRegs ∧ busy.regs[7]? = some 9 ∧ 1023 < busy.params.memorySize ∧ busy.mem.wf ∧
    busy.params.numRegs ≤ 8 ∧ busy.params.memorySize ≤ 1024 := by decide
theorem witness_onlyStoreChangesMemory :
    (one "STORE R0 5" [3, 0, 0, 0, 0, 0, 0, 0]).mem.wf ∧
    step (one "STORE R0 5" [3, 0, 0, 0, 0, 0, 0, 0]) =
      .next (stepped (one "STORE R0 5" [3, 0, 0, 0, 0, 0, 0, 0])) ∧
    (stepped (one "STORE R0 5" [3, 0, 0, 0, 0, 0, 0, 0])).mem.get 5 ≠
      (one "STORE R0 5" [3, 0, 0, 0, 0, 0, 0, 0]).mem.get 5 := ⟨by decide, rfl, by decide⟩
theorem witness_runs : runFor 1 busy = .next (stepped busy) ∧ runFor 0 busy = .next busy := ⟨rfl, rfl⟩
theorem witness_input :
    busy.inputs = 4 :: [] ∧ ((4 : Nat) : Int) = 4 ∧ busy.params.isValue 4 = true ∧ 7 < busy.params.numRegs ∧
    busy.params.numRegs ≤ 8 ∧ ({ busy with inputs := [-1] } : State).inputs = -1 :: [] ∧ (-1 : Int) < 0 ∧
    State.reset.inputs = [] := by decide
theorem witness_output :
    7 < busy.params.numRegs ∧ busy.regs[7]? = some 9 ∧ busy.params.numRegs ≤ 8 ∧
    (one "OUTPUT").Fetches (line "OUTPUT") ∧ (line "OUTPUT").op = Opcode.output.mnemonic ∧
    (line "OUTPUT").args.length ≠ 1 ∧ (one "OUTPUT 1").Fetches (line "OUTPUT 1") ∧ parseReg ['1'] = none :=
  ⟨by decide, rfl, by decide, ⟨rfl, rfl⟩, rfl, by decide, ⟨rfl, rfl⟩, rfl⟩
theorem witness_jumps :
    (one "JUMP").Fetches (line "JUMP") ∧ (line "JUMP").op = Opcode.jump.mnemonic ∧ (line "JUMP").args.length ≠ 1 ∧
    (one "JUMP R2").Fetches (line "JUMP R2") ∧ (line "JUMP R2").args = [['R', '2']] ∧ parseLit ['R', '2'] = none ∧
    (one "JUMPZ").Fetches (line "JUMPZ") ∧ (line "JUMPZ").op = Opcode.jumpz.mnemonic ∧
    (one "CALL 1 2").Fetches (line "CALL 1 2") ∧ (line "CALL 1 2").op = Opcode.call.mnemonic ∧
    (line "CALL 1 2").args.length ≠ 1 :=
  ⟨⟨rfl, rfl⟩, rfl, by decide, ⟨rfl, rfl⟩, rfl, rfl, ⟨rfl, rfl⟩, rfl, ⟨rfl, rfl⟩, rfl, by decide⟩
theorem witness_jumpz : State.reset.regs[0]? = some 0 ∧ busy.regs[0]? = some 5 ∧ (5 : Value) ≠ 0 := by decide
theorem witness_call : launched.Fetches (line "CALL 2") ∧ decode (line "CALL 2") = .ok (.call 2) :=
  ⟨⟨rfl, rfl⟩, rfl⟩
theorem witness_ret : (one "RET").stack = [] ∧ busy.stack = [] ++ [1] := by decide
theorem witness_returnResumesAfterTheCall :
    launched.FetchesInstr (.call 2) ∧ step launched = .next (stepped launched) ∧
    runFor 0 (stepped launched) = .next (stepped launched) ∧
    (∀ j w, j ≤ 0 → runFor j (stepped launched) = .next w → launched.stack.length < w.stack.length) ∧
    (stepped launched).stack.length = launched.stack.length + 1 ∧
    (stepped launched).FetchesInstr .ret ∧
    step (stepped launched) = .next (stepped (stepped launched)) := by
  refine ⟨⟨_, ⟨rfl, rfl⟩, rfl⟩, rfl, rfl, ?_, rfl, ⟨_, ⟨rfl, rfl⟩, rfl⟩, rfl⟩
  intro j w hj h
  obtain rfl : j = 0 := by omega
  cases h
  decide
theorem witness_halt : (one "HALT").Fetches (line "HALT") ∧ decode (line "HALT") = .ok .halt := ⟨⟨rfl, rfl⟩, rfl⟩
theorem witness_unrecognized :
    (one "HALTS ,").Fetches (line "HALTS ,") ∧ ∀ o : Opcode, o.mnemonic ≠ (line "HALTS ,").op := by
  refine ⟨⟨rfl, rfl⟩, fun o => ?_⟩
  cases o <;> decide
theorem witness_frames :
    exec (.load 7 1) busy = .next { busy with regs := [5, 7, 0, 0, 0, 0, 0, 1] } ∧ busy.mem.wf ∧
    exec (.store 7 0) busy = .next { busy with mem := [(0, 9), (100, 30)] } ∧
    exec (.jump 0) busy = .next { busy with pc := 0 } ∧
    exec (.output 8) busy = .next (takeFault (.invalidRegister 8) busy) := ⟨rfl, by decide, rfl, rfl, rfl⟩
theorem witness_stepKeepsWellFormed : busy.Wf ∧ step busy = .next (stepped busy) := ⟨busy_wf, rfl⟩
theorem witness_stepKeepsReturnPositions :
    busy.ReturnsInProgram ∧ step busy = .next (stepped busy) ∧ busy.FetchesInstr .ret := by
  refine ⟨?_, rfl, ⟨_, ⟨rfl, rfl⟩, rfl⟩⟩
  intro e he
  obtain rfl : e = 1 := by simpa [busy] using he
  decide

end Sys2Proof.Tests
end

/-! ### Numerals read back (00_scope.md R13, 30_encoding.md R86) -/

section

namespace Sys2Proof

/-- Reading digits from the most significant on undoes writing them from the least significant on: once the
digits of `n` are read, `n` is the number before those in `acc`. -/
theorem readDigits_writeDigits {base : Nat} (hb : 2 ≤ base) (hb' : base ≤ 10) {fuel n : Nat} (hn : n < fuel)
    (acc : List Char) : readDigits base 0 (writeDigits base fuel n acc) = readDigits base n acc := by
  induction fuel generalizing n acc with
  | zero => omega
  | succ fuel ih =>
    have hdigit : digitValue base (digitChar (n % base)) = some (n % base) :=
      digitValue_digitChar (Nat.mod_lt n (by omega)) hb'
    have hdiv : base * (n / base) + n % base = n := Nat.div_add_mod n base
    rw [writeDigits]
    split
    next hlast =>
      rw [hlast] at hdiv
      simp only [readDigits, hdigit, hdiv]
    next hmore =>
      have hpos : 0 < n := Nat.pos_of_ne_zero fun h => hmore (by simp [h])
      have hless : n / base < fuel := by
        have := Nat.div_lt_self hpos hb
        omega
      rw [ih hless]
      simp only [readDigits, hdigit, hdiv]

/-- The minimal numeral of a number reads back as it, in every base from two to ten. -/
theorem readNumeral_numeral {base : Nat} (hb : 2 ≤ base) (hb' : base ≤ 10) (n : Nat) :
    readNumeral base (numeral base n) = some n := by
  have hread : readDigits base 0 (numeral base n) = some n :=
    readDigits_writeDigits hb hb' (Nat.lt_succ_self n) []
  cases h : numeral base n with
  | nil => exact absurd h (numeral_ne_nil base n)
  | cons c cs => rwa [h] at hread

/-- Written with enough fuel, a positive number begins with a digit that is not zero. -/
theorem writeDigits_head_pos {base : Nat} (hb : 2 ≤ base) {fuel n : Nat} (hn : n < fuel) (hpos : 0 < n)
    (acc : List Char) :
    ∃ d, 0 < d ∧ d < base ∧ (writeDigits base fuel n acc).head? = some (digitChar d) := by
  induction fuel generalizing n acc with
  | zero => omega
  | succ fuel ih =>
    rw [writeDigits]
    split
    next hlast =>
      have hlt : n < base := (Nat.div_eq_zero_iff_lt (by omega)).mp hlast
      exact ⟨n, hpos, hlt, by rw [Nat.mod_eq_of_lt hlt, List.head?_cons]⟩
    next hmore =>
      have hless : n / base < n := Nat.div_lt_self hpos hb
      exact ih (by omega) (Nat.pos_of_ne_zero hmore) _

end Sys2Proof

end

/-! ### Binary text (00_scope.md R13, 41_alu.md R138) -/

section

namespace Sys2Proof.Machine

@[simp] theorem unbintext_bintext (v : Value) : unbintext (bintext v) = some v :=
  readNumeral_numeral (by decide) (by decide) v

theorem mem_bintext {v : Value} {c : Char} (h : c ∈ bintext v) : c = '0' ∨ c = '1' := by
  obtain ⟨d, hd, rfl⟩ := mem_numeral (by decide) h
  interval_cases d
  · exact .inl rfl
  · exact .inr rfl

/-- The form is minimal: a positive number's has no leading zero. -/
theorem bintext_head_pos {v : Value} (h : 0 < v) : (bintext v).head? = some '1' := by
  obtain ⟨d, hpos, hlt, hhead⟩ := writeDigits_head_pos (le_refl 2) (Nat.lt_succ_self v) h []
  obtain rfl : d = 1 := by omega
  exact hhead

/-- On binary forms the text variant of an ALU call is the call on the numbers, its answer rendered. -/
theorem aluBintext_bintext (r : Registry) (op : Token) (a b : Value) :
    aluBintext r op (bintext a) (bintext b) = renderAlu (aluExecute r op (a : Int) (some (b : Int))) := by
  simp [aluBintext]

/-- Settles O7: digits written are read back, the leading digit of a positive number is 1, and the text variant
of an ALU call renders the answer of the call. -/
theorem binaryTextReadsBack : Obligations.BinaryTextReadsBack := by
  refine ⟨fun v => ⟨unbintext_bintext v, fun c => mem_bintext, ?_, bintext_head_pos⟩, ?_⟩
  · rintro rfl
    rfl
  · intro r op a b z hz
    rw [aluBintext_bintext, hz]
    refine ⟨?_, renderAlu_neg⟩
    rintro v rfl
    exact renderAlu_ofNat v

end Sys2Proof.Machine

end

/-! ### Reset and taking a fault (10_state.md R36 to R40, 60_exceptions.md R211) -/

section

namespace Sys2Proof.Machine

/-- Settles O8: each field is the one `State.launch` is given or starts with, and in the empty memory list every
address is unlisted. -/
theorem resetLaunchesAtPositionZero : Obligations.ResetLaunchesAtPositionZero :=
  ⟨rfl, rfl, rfl, rfl, rfl, rfl, fun _ => rfl, rfl, rfl, rfl, rfl, rfl⟩

/-- Settles O23: setting the status and emitting one report are the two field updates of the statement. -/
theorem takingAFaultEndsTheRun : Obligations.TakingAFaultEndsTheRun := by
  intro f s
  rfl

end Sys2Proof.Machine

end

/-! ### The host port outside a run (00_scope.md R8, 60_exceptions.md R217) -/

section

namespace Sys2Proof.Machine

/-! When a run is in progress. -/

theorem runInProgress_iff {s : State} : runInProgress s = true ↔ s.status = .running ∧ s.ir ≠ .none := by
  simp [runInProgress]

theorem runInProgress_of_over {s : State} (h : s.Over) : runInProgress s = false :=
  Bool.eq_false_iff.mpr fun hr => h (runInProgress_iff.mp hr).1

theorem hostStep_of_runInProgress {s : State} (h : runInProgress s = true) (op : HostOp) :
    hostStep op s = .refused .runInProgress := by
  simp [hostStep, h]

/-! What a read, a write and a call of the ALU make of the component operation's answer. -/

variable {s t : State} {v : Value} {f : Fault}

theorem hostRead_ok : hostRead (.ok v) s = .ok (.value v) s := rfl

theorem hostRead_error : hostRead (.error f) s = .rejected f := rfl

theorem hostWrite_ok (h : s.params.isValue v = true) : hostWrite v (.ok t) s = .ok .done t := by
  simp [hostWrite, h]

theorem hostWrite_error (h : s.params.isValue v = true) : hostWrite v (.error f) s = .rejected f := by
  simp [hostWrite, h]

/-- A number that is no Value is refused whatever the component operation answers (assumption 28). -/
theorem hostWrite_notAValue (h : s.params.isValue v = false) (r : Except Fault State) :
    hostWrite v r s = .refused (.notAValue v) := by
  simp [hostWrite, h]

theorem hostAlu_value {op : Token} {a : Int} {b : Option Int} {z : Int}
    (h : aluExecute s.registry op a b = .value z) : hostAlu op a b s = .ok (.integer z) s := by
  rw [hostAlu, h]

theorem hostAlu_nopSentinel {op : Token} {a : Int} {b : Option Int}
    (h : aluExecute s.registry op a b = .nopSentinel) : hostAlu op a b s = .ok .nopSentinel s := by
  rw [hostAlu, h]

theorem hostAlu_unknownOperation {op name : Token} {a : Int} {b : Option Int}
    (h : aluExecute s.registry op a b = .unknownOperation name) :
    hostAlu op a b s = .rejected (.unknownOperation name) := by
  rw [hostAlu, h]

/-- The built-in HALT ignores its operands (R135). -/
theorem aluExecute_halt {r : Registry} (h : r.find aluHalt = none) (a : Int) (b : Option Int) :
    aluExecute r aluHalt a b = .nopSentinel := by
  rw [aluExecute, h]
  rfl

/-! Outside a run each host call is its component operation. -/

section Outside

variable (h : runInProgress s = false)
include h

theorem hostStep_inspect : hostStep .inspect s = .ok (.state s) s := by
  simp [hostStep, h]

theorem hostStep_readReg (i : Nat) : hostStep (.readReg i) s = hostRead (readReg i s) s := by
  simp [hostStep, h]

theorem hostStep_writeReg (i v : Nat) : hostStep (.writeReg i v) s = hostWrite v (writeReg i v s) s := by
  simp [hostStep, h]

theorem hostStep_memRead (a : Nat) : hostStep (.memRead a) s = hostRead (memRead a s) s := by
  simp [hostStep, h]

theorem hostStep_memWrite (a v : Nat) : hostStep (.memWrite a v) s = hostWrite v (memWrite a v s) s := by
  simp [hostStep, h]

theorem hostStep_readSegmented (g o : Nat) :
    hostStep (.readSegmented g o) s = hostRead (readSegmented g o s) s := by
  simp [hostStep, h]

theorem hostStep_writeSegmented (g o v : Nat) :
    hostStep (.writeSegmented g o v) s = hostWrite v (writeSegmented g o v s) s := by
  simp [hostStep, h]

theorem hostStep_aluExecute (op : Token) (a : Int) (b : Option Int) :
    hostStep (.aluExecute op a b) s = hostAlu op a b s := by
  simp [hostStep, h]

end Outside

/-- Settles O12: the refusal during a run, then outside one each call is `hostRead`, `hostWrite` or `hostAlu` of its
component operation. -/
theorem hostPortCallsTheComponents : Obligations.HostPortCallsTheComponents := by
  intro s
  refine ⟨hostStep_of_runInProgress, runInProgress_of_over, fun h => ?_⟩
  refine ⟨hostStep_inspect h, ?_, ?_, ?_, ?_, ?_, ?_, ?writeValue, ?writeOther, ?_, ?_, ?aluHalt, ?_⟩
  case writeValue =>
    intro v hv
    refine ⟨?_, ?_, ?_, ?_, ?_, ?_⟩
    · intro i t e; rw [hostStep_writeReg h, e, hostWrite_ok hv]
    · intro i f e; rw [hostStep_writeReg h, e, hostWrite_error hv]
    · intro a t e; rw [hostStep_memWrite h, e, hostWrite_ok hv]
    · intro a f e; rw [hostStep_memWrite h, e, hostWrite_error hv]
    · intro g o t e; rw [hostStep_writeSegmented h, e, hostWrite_ok hv]
    · intro g o f e; rw [hostStep_writeSegmented h, e, hostWrite_error hv]
  case writeOther =>
    intro v hv
    refine ⟨?_, ?_, ?_⟩
    · intro i; rw [hostStep_writeReg h, hostWrite_notAValue hv]
    · intro a; rw [hostStep_memWrite h, hostWrite_notAValue hv]
    · intro g o; rw [hostStep_writeSegmented h, hostWrite_notAValue hv]
  case aluHalt =>
    intro hfind a b
    rw [hostStep_aluExecute h, hostAlu_nopSentinel (aluExecute_halt hfind a b)]
  · intro i v e; rw [hostStep_readReg h, e, hostRead_ok]
  · intro i f e; rw [hostStep_readReg h, e, hostRead_error]
  · intro a v e; rw [hostStep_memRead h, e, hostRead_ok]
  · intro a f e; rw [hostStep_memRead h, e, hostRead_error]
  · intro g o v e; rw [hostStep_readSegmented h, e, hostRead_ok]
  · intro g o f e; rw [hostStep_readSegmented h, e, hostRead_error]
  · intro op a b z e; rw [hostStep_aluExecute h, hostAlu_value e]
  · intro op a b e; rw [hostStep_aluExecute h, hostAlu_nopSentinel e]
  · intro op a b n e; rw [hostStep_aluExecute h, hostAlu_unknownOperation e]

end Sys2Proof.Machine

end

/-! ### Writing back a result (00_scope.md R12, 60_exceptions.md R213) -/

section

namespace Sys2Proof.Machine

theorem canon_negative (p : Params) {z : Int} (h : z < 0) : canon p z = .error (.negativeValue z) := by
  simp [canon, h]

theorem canon_overflow {p : Params} {w : Nat} {z : Int} (hw : p.valueBits = some w) (hz : (2 : Int) ^ w ≤ z) :
    canon p z = .error (.valueOverflow z) := by
  have hpos : (0 : Int) < 2 ^ w := by positivity
  have hneg : ¬ z < 0 := by omega
  simp [canon, hneg, hw, hz]

/-- A result that the check rejects faults whatever the destination index is. -/
theorem writeBack_of_canon_error {s : State} {z : Int} {f : Fault} (h : canon s.params z = .error f) (d : Nat) :
    writeBack d z s = .next (takeFault f s) := by
  rw [writeBack, h, orRaise_error]

/-- A Value is left to the register write and its check of the index. -/
theorem writeBack_of_isValue {s : State} {v : Value} (h : s.params.isValue v = true) (d : Nat) :
    writeBack d (v : Int) s = orRaise (writeReg d v s) s .next := by
  rw [writeBack, canon_value h, orRaise_ok]

theorem writeReg_of_lt {s : State} {d : Nat} (h : d < s.params.numRegs) (v : Value) :
    writeReg d v s = .ok (s.setRegs (s.regs.set d v)) := by
  rcases writeReg_spec d v s with ⟨-, e⟩ | ⟨hle, -⟩
  · exact e
  · omega

theorem writeReg_of_le {s : State} {d : Nat} (h : s.params.numRegs ≤ d) (v : Value) :
    writeReg d v s = .error (.invalidRegister d) := by
  rcases writeReg_spec d v s with ⟨hlt, -⟩ | ⟨-, e⟩
  · omega
  · exact e

/-- Settles O28: the check of the result rejects a negative integer and one too large before the index is looked at,
and a Value goes on to the register write. -/
theorem resultsAreCheckedBeforeTheWrite : Obligations.ResultsAreCheckedBeforeTheWrite := by
  intro s d z
  refine ⟨?negative, ?overflow, ?value⟩
  case negative =>
    intro hz
    exact writeBack_of_canon_error (canon_negative s.params hz) d
  case overflow =>
    intro w hw hz
    exact writeBack_of_canon_error (canon_overflow hw hz) d
  case value =>
    rintro v rfl hv
    rw [writeBack_of_isValue hv]
    constructor
    · intro hd
      rw [writeReg_of_le hd, orRaise_error]
    · intro hd
      rw [writeReg_of_lt hd, orRaise_ok]
      rfl

end Sys2Proof.Machine

end

/-! ### What the invariants of the state rest on (10_state.md R21 to R30) -/

section

namespace Sys2Proof.Machine

variable {s t : State} {i : Instr}

/-- Well-formedness speaks of five fields only. -/
theorem State.Wf.congr (h : s.Wf) (hparams : t.params = s.params) (hregs : t.regs = s.regs)
    (hmem : t.mem = s.mem) (hsegtab : t.segtab = s.segtab) (hprogram : t.program = s.program) : t.Wf := by
  obtain ⟨hN, hlen, hval, hcanon, hbound, hcell, hseg, hprog⟩ := h
  constructor <;> simpa only [hparams, hregs, hmem, hsegtab, hprogram]

/-- A register of the file holds a Value. -/
theorem State.Wf.isValue_getD (h : s.Wf) {r : Nat} (hr : r < s.params.numRegs) :
    s.params.isValue (s.regs.getD r 0) = true := by
  have hr' : r < s.regs.length := h.regs_length.symm ▸ hr
  rw [List.getD_eq_getElem _ _ hr']
  exact h.regs_value _ (List.getElem_mem hr')

/-- Writing a Value to a register keeps N registers, each a Value (R21, R22). -/
theorem State.Wf.setRegs_set (h : s.Wf) (d : Nat) {v : Value} (hv : s.params.isValue v = true) :
    (s.setRegs (s.regs.set d v)).Wf where
  numRegs_pos := h.numRegs_pos
  regs_length := (List.length_set ..).trans h.regs_length
  regs_value := by
    intro u hu
    rcases List.mem_or_eq_of_mem_set hu with hu | rfl
    · exact h.regs_value u hu
    · exact hv
  mem_wf := h.mem_wf
  mem_bound := h.mem_bound
  mem_value := h.mem_value
  segtab_bound := h.segtab_bound
  program_wf := h.program_wf

/-- Writing a Value to an address of the space keeps the memory canonical and in range (R29). -/
theorem State.Wf.setMem_put (h : s.Wf) {a : Nat} {v : Value} (ha : a < s.params.memorySize)
    (hv : s.params.isValue v = true) : (s.setMem (s.mem.put a v)).Wf where
  numRegs_pos := h.numRegs_pos
  regs_length := h.regs_length
  regs_value := h.regs_value
  mem_wf := Memory.put_wf a v h.mem_wf
  mem_bound := by
    intro c hc
    rcases Memory.mem_put hc with ⟨rfl, -⟩ | hc
    · exact ha
    · exact h.mem_bound c hc
  mem_value := by
    intro c hc
    rcases Memory.mem_put hc with ⟨rfl, -⟩ | hc
    · exact hv
    · exact h.mem_value c hc
  segtab_bound := h.segtab_bound
  program_wf := h.program_wf

theorem State.Wf.ioIn (h : s.Wf) : (ioIn s).2.Wf :=
  h.congr (ioIn_params s) (ioIn_regs s) (ioIn_mem s) (ioIn_segtab s) (ioIn_program s)

theorem State.Wf.reportIfHalted (h : s.Wf) : (reportIfHalted s).Wf :=
  h.congr (reportIfHalted_params s) (reportIfHalted_regs s) (reportIfHalted_mem s) (reportIfHalted_segtab s)
    (reportIfHalted_program s)

/-- A meaning writes a register with a checked result or a cell with a register's Value, or none of the five
fields. -/
theorem ExecEffect.wf (he : ExecEffect i s t) (h : s.Wf) : t.Wf := by
  cases he with
  | wroteReg d v hd hv hi => exact h.setRegs_set d hv
  | wroteInput d v hd hv hz hi =>
    exact (h.setRegs_set d hv).congr (ioIn_params s) rfl (ioIn_mem s) (ioIn_segtab s) (ioIn_program s)
  | stored r a hr ha hi => exact h.setMem_put ha (h.isValue_getD hr)
  | inputFaulted rd f hf hi => exact h.ioIn.congr rfl rfl rfl rfl rfl
  | _ => exact h.congr rfl rfl rfl rfl rfl

/-- Settles O58: of the four ways a step goes, only a meaning that ran writes one of the fields, and its effects keep
them well formed. -/
theorem stepKeepsWellFormed : Obligations.StepKeepsWellFormed := by
  intro s t h hstep
  rcases step_cases s with ⟨-, e⟩ | ⟨-, -, e⟩ | ⟨l, err, -, -, e⟩ | ⟨l, i, u, -, -, -, he, e⟩
  all_goals
    rw [e] at hstep
    cases hstep
  · exact h
  · exact h.congr rfl rfl rfl rfl rfl
  · exact h.congr rfl rfl rfl rfl rfl
  · have hfetched : (fetched l s).Wf := h.congr rfl rfl rfl rfl rfl
    exact (he.wf hfetched).reportIfHalted

/-! The CallStack (R28). -/

/-- No meaning writes the configuration or the instruction register. -/
theorem ExecEffect.configuration_eq (he : ExecEffect i s t) :
    t.params = s.params ∧ t.segtab = s.segtab ∧ t.registry = s.registry ∧ t.program = s.program ∧
      t.ir = s.ir := by
  cases he <;> simp [push]

/-- The one entry that a meaning can add to the CallStack is the current `pc`, as CALL does (R174). -/
theorem ExecEffect.mem_stack (he : ExecEffect i s t) {e : Nat} (h : e ∈ t.stack) : e ∈ s.stack ∨ e = s.pc := by
  cases he with
  | called a hi => simpa [push] using h
  | returned rest v hs hi => exact .inl (hs ▸ List.mem_append_left [v] h)
  | inputFaulted rd f hf hi => exact .inl (ioIn_stack s ▸ h)
  | wroteInput d v hd hv hz hi => exact .inl (ioIn_stack s ▸ h)
  | _ => exact .inl h

theorem ExecEffect.returnsInProgram (he : ExecEffect i s t) (h : s.ReturnsInProgram)
    (hpc : 0 < s.pc ∧ s.pc ≤ s.program.length) : t.ReturnsInProgram := by
  obtain ⟨-, -, -, hprogram, -⟩ := he.configuration_eq
  intro e hmem
  rw [hprogram]
  rcases he.mem_stack hmem with hold | rfl
  · exact h e hold
  · exact hpc

/-- RET pops the top into `pc`, or halts on an empty stack (R175). -/
theorem ExecEffect.of_ret (he : ExecEffect .ret s t) :
    (∃ rest v, s.stack = rest ++ [v] ∧ t = (s.setStack rest).setPc v) ∨ t = halt .returnOnEmptyStack s := by
  cases he with
  | returned rest v hs hi => exact .inl ⟨rest, v, hs, rfl⟩
  | halted r hi => exact .inr (by simp_all)
  | _ => simp_all [MayFault]

/-- RET goes to an entry of the CallStack, or stays where it is on an empty one. -/
theorem ExecEffect.ret_pc (he : ExecEffect .ret s t) : t.pc ∈ s.stack ∨ t.pc = s.pc := by
  rcases he.of_ret with ⟨rest, v, hs, rfl⟩ | rfl
  · exact .inl (hs ▸ List.mem_append_right rest (List.mem_singleton_self v))
  · exact .inr rfl

/-- The position after a fetched instruction is one after an instruction of the program. -/
theorem State.Fetches.pc_succ_le {l : Line} (h : s.Fetches l) : s.pc + 1 ≤ s.program.length := by
  obtain ⟨hlt, -⟩ := List.getElem?_eq_some_iff.mp h.2
  exact hlt

theorem State.Fetches.not_over_program {l : Line} (h : s.Fetches l) : ¬ s.program.length ≤ s.pc := by
  have := h.pc_succ_le
  omega

/-- Settles O59: a step adds to the CallStack at most the position after the fetched instruction, and RET goes to
such an entry or to that position. -/
theorem stepKeepsReturnPositions : Obligations.StepKeepsReturnPositions := by
  intro s t h hstep
  rcases step_cases s with ⟨hover, e⟩ | ⟨-, hend, e⟩ | ⟨l, err, hl, hd, e⟩ | ⟨l, i, u, hl, hd, -, he, e⟩
  all_goals
    rw [e] at hstep
    cases hstep
  · exact ⟨h, fun ⟨_, hf, _⟩ => absurd hf.1 hover⟩
  · exact ⟨h, fun ⟨_, hf, _⟩ => absurd hend hf.not_over_program⟩
  · exact ⟨h, fun _ => hl.pc_succ_le⟩
  · have hpc : 0 < (fetched l s).pc ∧ (fetched l s).pc ≤ (fetched l s).program.length :=
      ⟨Nat.succ_pos _, hl.pc_succ_le⟩
    have hu : u.ReturnsInProgram := he.returnsInProgram h hpc
    obtain ⟨-, -, -, hprogram, -⟩ := he.configuration_eq
    refine ⟨?_, fun hret => ?_⟩
    · intro e hmem
      rw [reportIfHalted_stack] at hmem
      rw [reportIfHalted_program]
      exact hu e hmem
    · obtain rfl := fetchesInstr_unique hl hd hret
      rw [reportIfHalted_pc, reportIfHalted_program, hprogram]
      rcases he.ret_pc with hmem | hstay
      · exact (h _ hmem).2
      · rw [hstay]
        exact hpc.2

end Sys2Proof.Machine

end

/-! ### The traces of a run (10_state.md R33, 43_io.md R160) -/

section

namespace Sys2Proof.Machine

/-- The two traces of `s` begin those of `t`, and the inputs of `t` end those of `s` (R33). -/
def State.TracesExtend (s t : State) : Prop :=
  s.ioTrace <+: t.ioTrace ∧ s.reports <+: t.reports ∧ t.inputs <:+ s.inputs

namespace State.TracesExtend

variable {s t u : State}

theorem refl (s : State) : s.TracesExtend s :=
  ⟨List.prefix_rfl, List.prefix_rfl, List.suffix_rfl⟩

theorem trans (hst : s.TracesExtend t) (htu : t.TracesExtend u) : s.TracesExtend u := by
  obtain ⟨hio, hrep, hin⟩ := hst
  obtain ⟨hio', hrep', hin'⟩ := htu
  exact ⟨hio.trans hio', hrep.trans hrep', hin'.trans hin⟩

end State.TracesExtend

variable {s t : State} {i : Instr}

theorem tracesExtend_emit (s : State) (r : Report) : s.TracesExtend (s.emit r) :=
  ⟨List.prefix_rfl, List.prefix_append .., List.suffix_rfl⟩

theorem tracesExtend_logIo (s : State) (e : IoEvent) : s.TracesExtend (s.logIo e) :=
  ⟨List.prefix_append .., List.prefix_rfl, List.suffix_rfl⟩

theorem tracesExtend_takeFault (f : Fault) (s : State) : s.TracesExtend (takeFault f s) :=
  ⟨List.prefix_rfl, List.prefix_append .., List.suffix_rfl⟩

/-- `IoIn` takes its integer from the front of the inputs, or from past their end. -/
theorem tracesExtend_ioIn (s : State) : s.TracesExtend (ioIn s).2 := by
  obtain ⟨z, ins, n, e, hinputs⟩ := ioIn_spec s
  rw [e]
  refine ⟨List.prefix_append .., List.prefix_rfl, ?_⟩
  rcases hinputs with ⟨hin, -⟩ | ⟨-, rfl, -, -⟩
  · exact hin ▸ List.suffix_cons z ins
  · exact List.nil_suffix

theorem tracesExtend_reportIfHalted (s : State) : s.TracesExtend (reportIfHalted s) := by
  rcases reportIfHalted_eq s with ⟨r, -, e⟩ | ⟨-, e⟩
  · rw [e]
    exact tracesExtend_emit s _
  · rw [e]
    exact .refl s

theorem ExecEffect.tracesExtend (he : ExecEffect i s t) : s.TracesExtend t := by
  cases he with
  | faulted f hf hi => exact tracesExtend_takeFault f s
  | inputFaulted rd f hf hi => exact (tracesExtend_ioIn s).trans (tracesExtend_takeFault f _)
  | wroteInput d v hd hv hz hi => exact tracesExtend_ioIn s
  | delivered r hr hi => exact tracesExtend_logIo s _
  | reported op args hi => exact tracesExtend_emit s _
  | _ => exact .refl s

theorem tracesExtend_step (h : step s = .next t) : s.TracesExtend t := by
  rcases step_cases s with ⟨-, e⟩ | ⟨-, -, e⟩ | ⟨l, err, -, -, e⟩ | ⟨l, i, u, -, -, -, he, e⟩
  all_goals
    rw [e] at h
    cases h
  · exact .refl s
  · exact tracesExtend_emit s _
  · exact tracesExtend_takeFault _ (fetched l s)
  · have hfetched : s.TracesExtend (fetched l s) := .refl s
    exact (hfetched.trans he.tracesExtend).trans (tracesExtend_reportIfHalted u)

/-- Settles O47: a run keeps that the traces of its first state extend to those of the present one. -/
theorem tracesOnlyGrow : Obligations.TracesOnlyGrow := by
  intro k s t h
  obtain ⟨⟨es, hio⟩, ⟨rs, hrep⟩, ⟨zs, hin⟩⟩ : s.TracesExtend t :=
    runFor_keeps (P := s.TracesExtend) (fun _ _ hs hstep => hs.trans (tracesExtend_step hstep)) k s t (.refl s) h
  exact ⟨⟨es, hio.symm⟩, ⟨rs, hrep.symm⟩, ⟨zs, hin.symm⟩⟩

end Sys2Proof.Machine

end

/-! ### What each instruction leaves unchanged (10_state.md R24) -/

section

namespace Sys2Proof.Machine

variable {s t : State} {i : Instr}

theorem effect_of_exec (h : exec i s = .next t) : ExecEffect i s t := by
  obtain ⟨u, hu, he⟩ := exec_effect i s
  rw [hu] at h
  cases h
  exact he

/-! LOAD, ADD, SUB and INPUT. -/

/-- `i` is a register-writing instruction with the destination `rd`. -/
def WritesRegister (i : Instr) (rd : Nat) : Prop :=
  (∃ m, i = .load rd m) ∨ (∃ a b, i = .add rd a b) ∨ (∃ a b, i = .sub rd a b) ∨ i = .input rd

theorem WritesRegister.input_eq {d rd : Nat} (h : WritesRegister (.input d) rd) : d = rd := by
  simpa [WritesRegister] using h

theorem WritesRegister.arithmetic_eq {d rd : Nat} (h : WritesRegister i rd)
    (hi : (∃ m, i = .load d m) ∨ (∃ a b, i = .add d a b) ∨ (∃ a b, i = .sub d a b)) : d = rd := by
  rcases hi with ⟨m, rfl⟩ | ⟨a, b, rfl⟩ | ⟨a, b, rfl⟩ <;>
    simpa [WritesRegister, eq_comm] using h

/-- From the state it starts in, or for INPUT the one after the take of an integer, a register-writing instruction
writes its destination or faults. -/
theorem ExecEffect.of_writes {rd : Nat} (he : ExecEffect i s t) (hi : WritesRegister i rd) :
    ∃ u, (u = s ∨ i = .input rd ∧ u = (ioIn s).2) ∧
      ((∃ v, t = u.setRegs (s.regs.set rd v)) ∨ ∃ f, t = takeFault f u) := by
  cases he with
  | faulted f hf h => exact ⟨s, .inl rfl, .inr ⟨f, rfl⟩⟩
  | inputFaulted d f hf h =>
    subst h
    obtain rfl := hi.input_eq
    exact ⟨_, .inr ⟨rfl, rfl⟩, .inr ⟨f, rfl⟩⟩
  | wroteReg d v hd hv h =>
    obtain rfl := hi.arithmetic_eq h
    exact ⟨s, .inl rfl, .inl ⟨v, rfl⟩⟩
  | wroteInput d v hd hv hz h =>
    subst h
    obtain rfl := hi.input_eq
    exact ⟨_, .inr ⟨rfl, rfl⟩, .inl ⟨v, rfl⟩⟩
  | _ => rcases hi with ⟨m, rfl⟩ | ⟨a, b, rfl⟩ | ⟨a, b, rfl⟩ | rfl <;> simp_all

/-- Settles O55: the take of an integer leaves all but the streams and the I/O trace, and then either one register is
written or a fault is taken. -/
theorem registerWritersFrame : Obligations.RegisterWritersFrame := by
  intro i s t rd hi hexec
  obtain ⟨u, hu, ht⟩ := (effect_of_exec hexec).of_writes (rd := rd) hi
  rcases ht with ⟨v, rfl⟩ | ⟨f, rfl⟩
  · have hother : ∀ j, j ≠ rd → (s.regs.set rd v)[j]? = s.regs[j]? := fun j hj => List.getElem?_set_ne hj.symm
    rcases hu with rfl | ⟨rfl, rfl⟩ <;> simpa using hother
  · rcases hu with rfl | ⟨rfl, rfl⟩ <;> simp

/-! STORE. -/

theorem ExecEffect.of_store {r a : Nat} (he : ExecEffect (.store r a) s t) :
    t = s.setMem (s.mem.put a (s.regs.getD r 0)) ∨ ∃ f, t = takeFault f s := by
  cases he with
  | stored r' a' hr ha h =>
    cases h
    exact .inl rfl
  | faulted f hf h => exact .inr ⟨f, rfl⟩
  | _ => simp_all

/-- Settles O56: STORE writes one cell or takes a fault. -/
theorem storeFrame : Obligations.StoreFrame := by
  intro s t r a hcanon hexec
  rcases (effect_of_exec hexec).of_store with rfl | ⟨f, rfl⟩
  · have hother : ∀ b, b ≠ a → (s.mem.put a (s.regs.getD r 0)).get b = s.mem.get b := fun b hb => by
      rw [Memory.get_put a b _ s.mem hcanon.1, if_neg hb]
    simpa using hother
  · simp

/-! OUTPUT, the jumps and calls, HALT and the unrecognized opcodes. -/

theorem ExecEffect.of_output {r : Nat} (he : ExecEffect (.output r) s t) :
    (∃ v, t = s.logIo (.output v)) ∨ ∃ f, t = takeFault f s := by
  cases he with
  | delivered r' hr h => exact .inl ⟨_, rfl⟩
  | faulted f hf h => exact .inr ⟨f, rfl⟩
  | _ => simp_all

theorem ExecEffect.of_jumpz {a : Nat} (he : ExecEffect (.jumpz a) s t) : t = s.setPc a ∨ t = s := by
  cases he with
  | jumped a' h => exact .inl (by simp_all)
  | fellThrough a' h hz => exact .inr rfl
  | _ => simp_all [MayFault]

/-- Settles O57: case by case, the one effect each of the seven instructions has. -/
theorem controlAndOutputFrame : Obligations.ControlAndOutputFrame := by
  intro i s t hi hexec
  rcases hi with ⟨r, rfl⟩ | ⟨a, rfl⟩ | ⟨a, rfl⟩ | ⟨a, rfl⟩ | rfl | rfl | ⟨op, args, rfl⟩
  · rcases (effect_of_exec hexec).of_output with ⟨v, rfl⟩ | ⟨f, rfl⟩ <;> simp
  · obtain rfl : s.setPc a = t := Host.Outcome.next.inj hexec
    simp
  · rcases (effect_of_exec hexec).of_jumpz with rfl | rfl <;> simp
  · obtain rfl : (push s.pc s).setPc a = t := Host.Outcome.next.inj hexec
    simp [push]
  · rcases (effect_of_exec hexec).of_ret with ⟨rest, v, -, rfl⟩ | rfl <;> simp
  · obtain rfl : halt .haltInstruction s = t := Host.Outcome.next.inj hexec
    simp
  · obtain rfl : s.emit (.unrecognized ⟨op, args⟩) = t := Host.Outcome.next.inj hexec
    simp

end Sys2Proof.Machine

end

/-! ### Ended runs and register access (10_state.md R23, R32) -/

section

namespace Sys2Proof.Machine

/-- Settles O19: a step of a run that is over answers the same state, and so does every further one. -/
theorem endedRunStaysAsItIs : Obligations.EndedRunStaysAsItIs := by
  intro s k hover
  induction k with
  | zero => rfl
  | succ k ih =>
    rw [runFor, step_of_over hover]
    exact ih

variable {s : State} {i : Nat}

theorem readReg_of_lt (h : i < s.params.numRegs) : readReg i s = .ok (s.regs.getD i 0) := by
  rcases readReg_spec i s with ⟨-, e⟩ | ⟨hle, -⟩
  · exact e
  · omega

theorem readReg_of_le (h : s.params.numRegs ≤ i) : readReg i s = .error (.invalidRegister i) := by
  rcases readReg_spec i s with ⟨hlt, -⟩ | ⟨-, e⟩
  · omega
  · exact e

/-- The built-in LOAD writes back its immediate (R140). -/
theorem exec_load_of_builtin (h : s.registry.find aluLoad = none) (rd imm : Nat) :
    exec (.load rd imm) s = writeBack rd (imm : Int) s := by
  simp only [exec, execLoad, aluThen_load, h]

/-- Settles O27: within N the access is that of a list of N registers; outside it each access is the error that the
instruction takes as a fault and the host call rejects. -/
theorem registerAccessChecksTheIndex : Obligations.RegisterAccessChecksTheIndex := by
  intro s i v hwf
  constructor
  case left =>
    intro hi
    have hlen : i < s.regs.length := hwf.regs_length.symm ▸ hi
    refine ⟨⟨s.regs.getD i 0, ?_, readReg_of_lt hi⟩, s.setRegs (s.regs.set i v), writeReg_of_lt hi v, rfl, ?_, ?_⟩
    · rw [List.getElem?_eq_getElem hlen, List.getD_eq_getElem _ _ hlen]
    · have hnew : (s.regs.set i v).getD i 0 = v := by simp [hlen]
      rw [readReg_of_lt (s := s.setRegs (s.regs.set i v)) hi, State.setRegs_regs, hnew]
    · intro j hj
      exact List.getElem?_set_ne hj.symm
  case right =>
    intro hi
    have hread : readReg i s = .error (.invalidRegister i) := readReg_of_le hi
    have hwrite : writeReg i v s = .error (.invalidRegister i) := writeReg_of_le hi v
    refine ⟨hread, hwrite, ?_, ?_, ?_⟩
    · simp only [exec, execOutput, hread, orRaise_error]
    · intro hv hfind
      rw [exec_load_of_builtin hfind, writeBack_of_isValue hv, hwrite, orRaise_error]
    · intro hout
      constructor
      · rw [hostStep_readReg hout, hread, hostRead_error]
      · intro hv
        rw [hostStep_writeReg hout, hwrite, hostWrite_error hv]

end Sys2Proof.Machine

end

/-! ### Flat memory and its list form (20_memory.md R52 to R54) -/

section

namespace Sys2Proof.Machine

variable {s : State} {a b : Nat} {v w : Value} {m : Memory}

theorem memRead_of_lt (h : a < s.params.memorySize) : memRead a s = .ok (s.mem.get a) := by
  rcases memRead_spec a s with ⟨-, e⟩ | ⟨hle, -⟩
  · exact e
  · omega

theorem memRead_of_le (h : s.params.memorySize ≤ a) : memRead a s = .error (.invalidAddress a) := by
  rcases memRead_spec a s with ⟨hlt, -⟩ | ⟨-, e⟩
  · omega
  · exact e

theorem memWrite_of_lt (h : a < s.params.memorySize) (v : Value) :
    memWrite a v s = .ok (s.setMem (s.mem.put a v)) := by
  rcases memWrite_spec a v s with ⟨-, e⟩ | ⟨hle, -⟩
  · exact e
  · omega

theorem memWrite_of_le (h : s.params.memorySize ≤ a) (v : Value) :
    memWrite a v s = .error (.invalidAddress a) := by
  rcases memWrite_spec a v s with ⟨hlt, -⟩ | ⟨-, e⟩
  · omega
  · exact e

theorem Memory.get_put_same (h : m.wf) (a : Nat) (v : Value) : (m.put a v).get a = v := by
  rw [Memory.get_put a a v m h.1, if_pos rfl]

theorem Memory.get_put_of_ne (h : m.wf) (hb : b ≠ a) (v : Value) : (m.put a v).get b = m.get b := by
  rw [Memory.get_put a b v m h.1, if_neg hb]

/-- A read depends on the bound and the cell alone, whether the address is in range or not. -/
theorem memRead_setMem (h : m.get a = s.mem.get a) : memRead a (s.setMem m) = memRead a s := by
  simp only [memRead, State.setMem_params, State.setMem_mem, h]

/-- Settles O38: in range the new memory is `put` of the old one; out of range both accesses fail. -/
theorem flatWriteChangesOneCell : Obligations.FlatWriteChangesOneCell := by
  intro s a v hcanon
  constructor
  case left =>
    intro ha
    refine ⟨s.setMem (s.mem.put a v), memWrite_of_lt ha v, rfl, ?_, ?_⟩
    · rw [memRead_of_lt (s := s.setMem (s.mem.put a v)) ha, State.setMem_mem, Memory.get_put_same hcanon]
    · intro b hb
      exact memRead_setMem (Memory.get_put_of_ne hcanon hb v)
  case right =>
    intro ha
    exact ⟨memWrite_of_le ha v, memRead_of_le ha⟩

/-! The canonical form: the first cell of a list is the lowest address that does not read as unlisted. -/

theorem Memory.get_head (b : Nat) (w : Value) (m : Memory) : Memory.get b ((b, w) :: m) = w := by
  rw [Memory.get, if_pos rfl]

theorem Memory.get_tail (h : a ≠ b) (w : Value) (m : Memory) : Memory.get a ((b, w) :: m) = Memory.get a m := by
  rw [Memory.get, if_neg h]

/-- The parts of a canonical list. -/
theorem Memory.wf_cons (h : Memory.wf ((b, w) :: m)) :
    w ≠ Memory.unlisted ∧ (∀ c ∈ m, b < c.1) ∧ Memory.wf m := by
  obtain ⟨hsorted, hlisted⟩ := h
  obtain ⟨hbelow, hsorted⟩ := List.pairwise_cons.mp hsorted
  exact ⟨hlisted _ List.mem_cons_self, hbelow, hsorted, fun c hc => hlisted c (List.mem_cons_of_mem _ hc)⟩

/-- An address that does not read as unlisted is not below the first cell. -/
theorem Memory.head_le_of_get_ne (h : Memory.wf ((b, w) :: m))
    (ha : Memory.get a ((b, w) :: m) ≠ Memory.unlisted) : b ≤ a := by
  obtain ⟨-, hbelow, -⟩ := Memory.wf_cons h
  by_contra hlt
  refine ha (Memory.get_below a _ fun c hc => ?_)
  rcases List.mem_cons.mp hc with rfl | hc
  · exact Nat.lt_of_not_le hlt
  · exact (Nat.lt_of_not_le hlt).trans (hbelow c hc)

/-- Settles O41: two lists that read alike have the same first cell, and then tails that read alike. -/
theorem canonicalMemoriesAreEqualData : Obligations.CanonicalMemoriesAreEqualData := by
  intro m n hm hn hget
  induction m generalizing n with
  | nil =>
    cases n with
    | nil => rfl
    | cons d n =>
      obtain ⟨hd, -, -⟩ := Memory.wf_cons hn
      exact absurd ((hget d.1).trans (Memory.get_head d.1 d.2 n)).symm hd
  | cons c m ih =>
    obtain ⟨a, v⟩ := c
    obtain ⟨hv, hbelow_m, hm'⟩ := Memory.wf_cons hm
    have hreads_a := Memory.get_head a v m
    cases n with
    | nil => exact absurd (hreads_a.symm.trans (hget a)) hv
    | cons d n =>
      obtain ⟨b, w⟩ := d
      obtain ⟨hw, hbelow_n, hn'⟩ := Memory.wf_cons hn
      have hreads_b := Memory.get_head b w n
      have hab : a ≤ b := Memory.head_le_of_get_ne hm (by rwa [hget b, hreads_b])
      have hba : b ≤ a := Memory.head_le_of_get_ne hn (by rwa [← hget a, hreads_a])
      obtain rfl : a = b := Nat.le_antisymm hab hba
      obtain rfl : v = w := hreads_a.symm.trans ((hget a).trans hreads_b)
      have htails : ∀ x, Memory.get x m = Memory.get x n := by
        intro x
        by_cases hx : x = a
        · rw [hx, Memory.get_below a m hbelow_m, Memory.get_below a n hbelow_n]
        · rw [← Memory.get_tail hx v m, ← Memory.get_tail hx v n]
          exact hget x
      rw [ih n hm' hn' htails]

end Sys2Proof.Machine

end

/-! ### What a step can do to memory and to the configuration (20_memory.md R60, R66, R73) -/

section

namespace Sys2Proof.Machine

variable {s t : State} {i : Instr}

/-- The one effect that writes memory is that of STORE. -/
theorem ExecEffect.mem_eq_or_stored (he : ExecEffect i s t) :
    t.mem = s.mem ∨ ∃ r a, i = .store r a ∧ t.mem = s.mem.put a (s.regs.getD r 0) := by
  cases he with
  | stored r a hr ha hi => exact .inr ⟨r, a, hi, rfl⟩
  | inputFaulted rd f hf hi => exact .inl (ioIn_mem s)
  | wroteInput d v hd hv hz hi => exact .inl (ioIn_mem s)
  | _ => exact .inl rfl

/-- A step leaves the memory, or it fetches a STORE and writes the register to the cell at the literal. -/
theorem step_mem_eq_or_stored (h : step s = .next t) :
    t.mem = s.mem ∨ ∃ r a, s.FetchesInstr (.store r a) ∧ t.mem = s.mem.put a (s.regs.getD r 0) := by
  rcases step_cases s with ⟨-, e⟩ | ⟨-, -, e⟩ | ⟨l, err, -, -, e⟩ | ⟨l, i, u, hl, hd, -, he, e⟩
  all_goals
    rw [e] at h
    cases h
  · exact .inl rfl
  · exact .inl rfl
  · exact .inl rfl
  · rw [reportIfHalted_mem]
    rcases he.mem_eq_or_stored with hmem | ⟨r, a, rfl, hmem⟩
    · exact .inl hmem
    · exact .inr ⟨r, a, ⟨l, hl, hd⟩, hmem⟩

/-- Settles O43: a changed cell rules out a step that leaves the memory, and an address other than the literal. -/
theorem onlyStoreChangesMemory : Obligations.OnlyStoreChangesMemory := by
  intro s t a hcanon hstep hchanged
  rcases step_mem_eq_or_stored hstep with hmem | ⟨r, b, hfetch, hmem⟩
  · exact absurd (by rw [hmem]) hchanged
  · rw [hmem] at hchanged ⊢
    by_cases hab : a = b
    · subst hab
      exact ⟨r, hfetch, Memory.get_put_same hcanon a _⟩
    · exact absurd (Memory.get_put_of_ne hcanon hab _) hchanged

/-- `t` has the SegmentTable, the parameters, the program and the ALU registry of `s`. -/
def State.SameConfiguration (s t : State) : Prop :=
  t.segtab = s.segtab ∧ t.params = s.params ∧ t.program = s.program ∧ t.registry = s.registry

theorem State.SameConfiguration.refl (s : State) : s.SameConfiguration s := ⟨rfl, rfl, rfl, rfl⟩

theorem State.SameConfiguration.trans {u : State} (hst : s.SameConfiguration t) (htu : t.SameConfiguration u) :
    s.SameConfiguration u := by
  obtain ⟨hsegtab, hparams, hprogram, hregistry⟩ := hst
  obtain ⟨hsegtab', hparams', hprogram', hregistry'⟩ := htu
  exact ⟨hsegtab'.trans hsegtab, hparams'.trans hparams, hprogram'.trans hprogram, hregistry'.trans hregistry⟩

theorem sameConfiguration_reportIfHalted (s : State) : s.SameConfiguration (reportIfHalted s) :=
  ⟨reportIfHalted_segtab s, reportIfHalted_params s, reportIfHalted_program s, reportIfHalted_registry s⟩

theorem ExecEffect.sameConfiguration (he : ExecEffect i s t) : s.SameConfiguration t := by
  obtain ⟨hparams, hsegtab, hregistry, hprogram, -⟩ := he.configuration_eq
  exact ⟨hsegtab, hparams, hprogram, hregistry⟩

theorem sameConfiguration_step (h : step s = .next t) : s.SameConfiguration t := by
  rcases step_cases s with ⟨-, e⟩ | ⟨-, -, e⟩ | ⟨l, err, -, -, e⟩ | ⟨l, i, u, -, -, -, he, e⟩
  all_goals
    rw [e] at h
    cases h
  · exact .refl s
  · exact .refl s
  · exact .refl s
  · have hfetched : s.SameConfiguration (fetched l s) := .refl s
    exact (hfetched.trans he.sameConfiguration).trans (sameConfiguration_reportIfHalted u)

/-- Settles O60: every step of a run keeps the configuration of the run's first state. -/
theorem runKeepsTheConfiguration : Obligations.RunKeepsTheConfiguration := by
  intro k s t h
  exact runFor_keeps (P := s.SameConfiguration) (fun _ _ hs hstep => hs.trans (sameConfiguration_step hstep))
    k s t (.refl s) h

end Sys2Proof.Machine

end

/-! ### Segmented memory (20_memory.md R55 to R59) -/

section

namespace Sys2Proof.Machine

variable {s : State} {seg o a : Nat} {f : Fault}

theorem segTranslate_of_le (h : s.segtab.length ≤ seg) (o : Nat) :
    segTranslate seg o s = .error (.invalidSegment seg) := by
  simp only [segTranslate, List.getElem?_eq_none h]

section Descriptor

variable {d : SegDescriptor} (hd : s.segtab[seg]? = some d)
include hd

theorem segTranslate_of_limit_le (ho : d.limit ≤ o) : segTranslate seg o s = .error (.invalidOffset seg o) := by
  simp only [segTranslate, hd, if_pos ho]

theorem segTranslate_of_lt_limit (ho : o < d.limit) : segTranslate seg o s = .ok (d.base + o) := by
  simp only [segTranslate, hd, if_neg (Nat.not_le.mpr ho)]

/-- A translated address is one of MemorySpace (R59). -/
theorem State.Wf.base_add_lt (h : s.Wf) (ho : o < d.limit) : d.base + o < s.params.memorySize := by
  have hbound := h.segtab_bound d (List.mem_of_getElem? hd)
  omega

end Descriptor

theorem readSegmented_of_ok (h : segTranslate seg o s = .ok a) : readSegmented seg o s = memRead a s := by
  rw [readSegmented, h]
  rfl

theorem readSegmented_of_error (h : segTranslate seg o s = .error f) : readSegmented seg o s = .error f := by
  rw [readSegmented, h]
  rfl

theorem writeSegmented_of_ok (h : segTranslate seg o s = .ok a) (v : Value) :
    writeSegmented seg o v s = memWrite a v s := by
  rw [writeSegmented, h]
  rfl

theorem writeSegmented_of_error (h : segTranslate seg o s = .error f) (v : Value) :
    writeSegmented seg o v s = .error f := by
  rw [writeSegmented, h]
  rfl

/-- Settles O39: each segmented operation binds the translation to its flat operation. -/
theorem segmentedAccessDelegates : Obligations.SegmentedAccessDelegates := by
  intro s seg o v
  exact ⟨fun a h => ⟨readSegmented_of_ok h, writeSegmented_of_ok h v⟩,
    fun f h => ⟨readSegmented_of_error h, writeSegmented_of_error h v⟩⟩

/-- Settles O40: the three cases of the translation; in the third, `base + limit ≤ MEMORY_SIZE` puts the flat access
in range. -/
theorem segmentTranslationChecks : Obligations.SegmentTranslationChecks := by
  intro s seg o v
  refine ⟨fun hseg => segTranslate_of_le hseg o, fun d hd => ⟨segTranslate_of_limit_le hd, fun ho => ?_⟩⟩
  have htranslate := segTranslate_of_lt_limit hd ho
  refine ⟨htranslate, fun hwf => ?_⟩
  have hrange : d.base + o < s.params.memorySize := hwf.base_add_lt hd ho
  have hwrite := memWrite_of_lt hrange v
  exact ⟨(readSegmented_of_ok htranslate).trans (memRead_of_lt hrange),
    _, (writeSegmented_of_ok htranslate v).trans hwrite, hwrite⟩

end Sys2Proof.Machine

end

/-! ### Operand tokens in base ten (30_encoding.md R85, R86) -/

section

namespace Sys2Proof

/-! Digits, read one by one. -/

theorem digitValue_isSome {base : Nat} {c : Char} :
    (digitValue base c).isSome = true ↔ '0'.toNat ≤ c.toNat ∧ c.toNat < '0'.toNat + base := by
  simp [digitValue]

theorem digitValue_of_toNat {base d : Nat} {c : Char} (hd : d < base) (hc : c.toNat = '0'.toNat + d) :
    digitValue base c = some d := by
  rw [digitValue, if_pos ⟨by omega, by omega⟩, hc, Nat.add_sub_cancel_left]

theorem readDigits_cons (base acc : Nat) (c : Char) (cs : List Char) :
    readDigits base acc (c :: cs) = (digitValue base c).bind fun d => readDigits base (base * acc + d) cs := by
  rw [readDigits]
  cases digitValue base c <;> rfl

/-- The digits on the right are read after the number on the left. -/
theorem readDigits_append (base acc : Nat) (cs ds : List Char) :
    readDigits base acc (cs ++ ds) = (readDigits base acc cs).bind fun n => readDigits base n ds := by
  induction cs generalizing acc with
  | nil => rfl
  | cons c cs ih => simp only [List.cons_append, readDigits_cons, ih, Option.bind_assoc]

theorem readDigits_singleton {base d : Nat} {c : Char} (hd : d < base) (hc : c.toNat = '0'.toNat + d) (acc : Nat) :
    readDigits base acc [c] = some (base * acc + d) := by
  rw [readDigits_cons, digitValue_of_toNat hd hc]
  rfl

theorem readDigits_isSome {base acc : Nat} {cs : List Char} :
    (readDigits base acc cs).isSome = true ↔ ∀ c ∈ cs, (digitValue base c).isSome = true := by
  induction cs generalizing acc with
  | nil => simp [readDigits]
  | cons c cs ih =>
    rw [readDigits_cons, List.forall_mem_cons]
    cases digitValue base c with
    | none => simp
    | some d => simpa using ih

/-! Literals and registers. -/

theorem parseLit_eq_readDigits {tok : Token} (h : tok ≠ []) : parseLit tok = readDigits 10 0 tok := by
  cases tok with
  | nil => exact absurd rfl h
  | cons c cs => rfl

theorem ne_nil_of_parseLit {tok : Token} {n : Nat} (h : parseLit tok = some n) : tok ≠ [] := by
  rintro rfl
  cases h

/-- The digits of base ten are the characters from `0` to `9`. -/
theorem parseLit_isSome {tok : Token} : (parseLit tok).isSome = true ↔
    tok ≠ [] ∧ ∀ c ∈ tok, '0'.toNat ≤ c.toNat ∧ c.toNat ≤ '9'.toNat := by
  have hten : ∀ c : Char, (digitValue 10 c).isSome = true ↔ '0'.toNat ≤ c.toNat ∧ c.toNat ≤ '9'.toNat :=
    fun c => digitValue_isSome.trans (and_congr_right fun _ => Nat.lt_succ_iff)
  by_cases htok : tok = []
  · subst htok
    simp [parseLit, readNumeral]
  · rw [parseLit_eq_readDigits htok, readDigits_isSome]
    simp only [hten, ne_eq, htok, not_false_eq_true, true_and]

/-- One more digit on the right makes ten times the number plus the digit. -/
theorem parseLit_append_digit {tok : Token} {c : Char} {n d : Nat} (h : parseLit tok = some n) (hd : d < 10)
    (hc : c.toNat = '0'.toNat + d) : parseLit (tok ++ [c]) = some (10 * n + d) := by
  have hread : readDigits 10 0 tok = some n := by rw [← parseLit_eq_readDigits (ne_nil_of_parseLit h), h]
  rw [parseLit_eq_readDigits (by simp), readDigits_append, hread, Option.bind_some, readDigits_singleton hd hc]

theorem parseReg_marker (ds : Token) : parseReg ('R' :: ds) = parseLit ds := by
  rw [parseReg, if_pos rfl, parseLit]

theorem exists_marker_of_parseReg {tok : Token} {n : Nat} (h : parseReg tok = some n) : ∃ ds, tok = 'R' :: ds := by
  cases tok with
  | nil => cases h
  | cons c ds =>
    rw [parseReg] at h
    split at h
    next hc => exact ⟨ds, by rw [hc]⟩
    next => cases h

@[simp] theorem parseLit_litToken (n : Nat) : parseLit (litToken n) = some n :=
  readNumeral_numeral (by decide) (by decide) n

@[simp] theorem parseReg_regToken (n : Nat) : parseReg (regToken n) = some n := by
  rw [regToken, parseReg_marker]
  exact parseLit_litToken n

/-- Settles O3: a literal is a nonempty run of decimal digits read from the left, and a register is a literal after
its marker. -/
theorem operandTokensAreDecimal : Obligations.OperandTokensAreDecimal := by
  refine ⟨fun tok => parseLit_isSome, ?_, ?_, parseReg_marker, fun tok n => exists_marker_of_parseReg⟩
  · intro c d hd hc
    rw [parseLit_eq_readDigits (by simp), readDigits_singleton hd hc]
    simp
  · intro tok c n d h hd hc
    exact parseLit_append_digit h hd hc

end Sys2Proof

end

/-! ### The operands of a recognized opcode (30_encoding.md R83, R87 to R89) -/

section

namespace Sys2Proof

/-- The opcode whose row an instruction is of; the catch-all row is that of none (R89, R191). -/
def Instr.opcode? : Instr → Option Opcode
  | .load _ _ => some .load
  | .add _ _ _ => some .add
  | .sub _ _ _ => some .sub
  | .store _ _ => some .store
  | .input _ => some .input
  | .output _ => some .output
  | .jump _ => some .jump
  | .jumpz _ => some .jumpz
  | .call _ => some .call
  | .ret => some .ret
  | .halt => some .halt
  | .unrecognized _ _ => none

/-- An instruction of a row is well formed, and its own line has the row's mnemonic and operand count. -/
theorem Instr.encode_of_opcode {i : Instr} {o : Opcode} (h : i.opcode? = some o) :
    i.wf = true ∧ (encode i).op = o.mnemonic ∧ (encode i).args.length = o.format.operands := by
  cases i <;> cases h <;> exact ⟨rfl, rfl, rfl⟩

theorem Instr.opcode?_eq_none {i : Instr} : i.opcode? = none ↔ ∃ op args, i = .unrecognized op args := by
  cases i <;> simp [Instr.opcode?]

/-- Everything that reading the operand tokens `ts` for the row of `o` can answer, where `n` operands are due. -/
inductive ParseResult (o : Opcode) (n : Nat) (ts : List Token) : Except DecodeError Instr → Prop where
  | wrongCount (h : ts.length ≠ n) : ParseResult o n ts (.error (.operandCount n ts.length))
  | badOperand (h : ts.length = n) (k : Nat) : ParseResult o n ts (.error (.badOperand k))
  | parsed (h : ts.length = n) (i : Instr) (hi : i.opcode? = some o) : ParseResult o n ts (.ok i)

/-! The readers of the formats, on as many tokens as they take. -/

section Readers

variable {parse : Token → Option Nat} {t u v : Token} {n r d a b : Nat}

theorem parseOne_ok (mk : Nat → Instr) (h : parse t = some n) : parseOne parse mk [t] = .ok (mk n) := by
  rw [parseOne, operand_some 1 h]
  rfl

theorem parseOne_bad (mk : Nat → Instr) (h : parse t = none) : parseOne parse mk [t] = .error (.badOperand 1) := by
  rw [parseOne, operand_none 1 h]
  rfl

theorem parseTwo_ok (mk : Nat → Nat → Instr) (ht : parseReg t = some r) (hu : parseLit u = some n) :
    parseTwo mk [t, u] = .ok (mk r n) := by
  rw [parseTwo, operand_some 1 ht, operand_some 2 hu]
  rfl

theorem parseTwo_bad_first (mk : Nat → Nat → Instr) (ht : parseReg t = none) :
    parseTwo mk [t, u] = .error (.badOperand 1) := by
  rw [parseTwo, operand_none 1 ht]
  rfl

theorem parseTwo_bad_second (mk : Nat → Nat → Instr) (ht : parseReg t = some r) (hu : parseLit u = none) :
    parseTwo mk [t, u] = .error (.badOperand 2) := by
  rw [parseTwo, operand_some 1 ht, operand_none 2 hu]
  rfl

theorem parseThree_ok (mk : Nat → Nat → Nat → Instr) (ht : parseReg t = some d)
    (hu : parseReg u = some a) (hv : parseReg v = some b) :
    parseThree mk [t, u, v] = .ok (mk d a b) := by
  rw [parseThree, operand_some 1 ht, operand_some 2 hu, operand_some 3 hv]
  rfl

theorem parseThree_bad_first (mk : Nat → Nat → Nat → Instr) (ht : parseReg t = none) :
    parseThree mk [t, u, v] = .error (.badOperand 1) := by
  rw [parseThree, operand_none 1 ht]
  rfl

theorem parseThree_bad_second (mk : Nat → Nat → Nat → Instr) (ht : parseReg t = some d) (hu : parseReg u = none) :
    parseThree mk [t, u, v] = .error (.badOperand 2) := by
  rw [parseThree, operand_some 1 ht, operand_none 2 hu]
  rfl

theorem parseThree_bad_third (mk : Nat → Nat → Nat → Instr) (ht : parseReg t = some d)
    (hu : parseReg u = some a) (hv : parseReg v = none) :
    parseThree mk [t, u, v] = .error (.badOperand 3) := by
  rw [parseThree, operand_some 1 ht, operand_some 2 hu, operand_none 3 hv]
  rfl

end Readers

/-! The readers of the formats, on any number of tokens. -/

section Results

variable {o : Opcode} (ts : List Token)

theorem parseZ_result {i : Instr} (hi : i.opcode? = some o) : ParseResult o 0 ts (parseZ i ts) := by
  match ts with
  | [] => exact .parsed (by rfl) i hi
  | _ :: _ => exact .wrongCount (by simp)

theorem parseOne_result (parse : Token → Option Nat) {mk : Nat → Instr} (hmk : ∀ n, (mk n).opcode? = some o) :
    ParseResult o 1 ts (parseOne parse mk ts) := by
  match ts with
  | [t] =>
    cases ht : parse t with
    | none => exact parseOne_bad mk ht ▸ .badOperand (by rfl) 1
    | some n => exact parseOne_ok mk ht ▸ .parsed (by rfl) _ (hmk n)
  | [] | _ :: _ :: _ => exact .wrongCount (by simp)

theorem parseTwo_result {mk : Nat → Nat → Instr} (hmk : ∀ r n, (mk r n).opcode? = some o) :
    ParseResult o 2 ts (parseTwo mk ts) := by
  match ts with
  | [t, u] =>
    cases ht : parseReg t with
    | none => exact parseTwo_bad_first mk ht ▸ .badOperand (by rfl) 1
    | some r =>
      cases hu : parseLit u with
      | none => exact parseTwo_bad_second mk ht hu ▸ .badOperand (by rfl) 2
      | some n => exact parseTwo_ok mk ht hu ▸ .parsed (by rfl) _ (hmk r n)
  | [] | [_] | _ :: _ :: _ :: _ => exact .wrongCount (by simp)

theorem parseThree_result {mk : Nat → Nat → Nat → Instr} (hmk : ∀ d a b, (mk d a b).opcode? = some o) :
    ParseResult o 3 ts (parseThree mk ts) := by
  match ts with
  | [t, u, v] =>
    cases ht : parseReg t with
    | none => exact parseThree_bad_first mk ht ▸ .badOperand (by rfl) 1
    | some d =>
      cases hu : parseReg u with
      | none => exact parseThree_bad_second mk ht hu ▸ .badOperand (by rfl) 2
      | some a =>
        cases hv : parseReg v with
        | none => exact parseThree_bad_third mk ht hu hv ▸ .badOperand (by rfl) 3
        | some b => exact parseThree_ok mk ht hu hv ▸ .parsed (by rfl) _ (hmk d a b)
  | [] | [_] | [_, _] | _ :: _ :: _ :: _ :: _ => exact .wrongCount (by simp)

end Results

/-- Each opcode reads its operands by its format, into its own row. -/
theorem parseOperands_result (o : Opcode) (ts : List Token) :
    ParseResult o o.format.operands ts (parseOperands o ts) := by
  cases o with
  | load => exact parseTwo_result ts fun _ _ => rfl
  | add => exact parseThree_result ts fun _ _ _ => rfl
  | sub => exact parseThree_result ts fun _ _ _ => rfl
  | store => exact parseTwo_result ts fun _ _ => rfl
  | input => exact parseOne_result ts parseReg fun _ => rfl
  | output => exact parseOne_result ts parseReg fun _ => rfl
  | jump => exact parseOne_result ts parseLit fun _ => rfl
  | jumpz => exact parseOne_result ts parseLit fun _ => rfl
  | call => exact parseOne_result ts parseLit fun _ => rfl
  | ret => exact parseZ_result ts rfl
  | halt => exact parseZ_result ts rfl

/-! The decoder is the catch-all row, or the reader of a recognized opcode. -/

variable {l : Line} {o : Opcode} {i : Instr}

theorem decode_of_none (h : Opcode.ofToken l.op = none) : decode l = .ok (.unrecognized l.op l.args) := by
  rw [decode, h]

theorem decode_of_some (h : Opcode.ofToken l.op = some o) : decode l = parseOperands o l.args := by
  rw [decode, h]

theorem decode_result (h : Opcode.ofToken l.op = some o) :
    ParseResult o o.format.operands l.args (decode l) :=
  decode_of_some h ▸ parseOperands_result o l.args

/-- What a recognized opcode's line decodes to is of its row, and the line has the row's operand count. -/
theorem opcode_of_decode (h : Opcode.ofToken l.op = some o) (hd : decode l = .ok i) :
    i.opcode? = some o ∧ l.args.length = o.format.operands := by
  have hresult := decode_result h
  rw [hd] at hresult
  cases hresult with
  | parsed hlen _ hi => exact ⟨hi, hlen⟩

/-- Settles O4: with a wrong count the other two answers are impossible, and with the right count this one is. -/
theorem operandCountIsCheckedFirst : Obligations.OperandCountIsCheckedFirst := by
  intro l o ho
  have hresult := decode_result ho
  constructor
  case left =>
    intro hlen
    generalize decode l = r at hresult ⊢
    cases hresult with
    | wrongCount _ => rfl
    | badOperand h k => exact absurd h hlen
    | parsed h i hi => exact absurd h hlen
  case right =>
    intro hlen m n hd
    rw [hd] at hresult
    cases hresult with
    | wrongCount h => exact h hlen

end Sys2Proof

end

/-! ### The rows of the decoder (30_encoding.md R83 to R90, R96) -/

section

namespace Sys2Proof.Machine

variable {o : Opcode}

theorem decodesOne {parse : Token → Option Nat} {mk : Nat → Instr} (h : parseOperands o = parseOne parse mk) :
    DecodesOne o parse mk := by
  intro t
  rw [decode_mnemonic, h]
  exact ⟨fun n => parseOne_ok mk, parseOne_bad mk⟩

theorem decodesTwo {mk : Nat → Nat → Instr} (h : parseOperands o = parseTwo mk) : DecodesTwo o mk := by
  intro t u
  rw [decode_mnemonic, h]
  exact ⟨fun r n => parseTwo_ok mk, parseTwo_bad_first mk, fun r => parseTwo_bad_second mk⟩

theorem decodesThree {mk : Nat → Nat → Nat → Instr} (h : parseOperands o = parseThree mk) : DecodesThree o mk := by
  intro t u v
  rw [decode_mnemonic, h]
  exact ⟨fun d a b => parseThree_ok mk, parseThree_bad_first mk, fun d => parseThree_bad_second mk,
    fun d a => parseThree_bad_third mk⟩

/-- What a proper line decodes to is a well-formed instruction of the line's own row. -/
theorem decode_keeps_row {l : Line} {i : Instr} (hl : l.wf = true) (hd : decode l = .ok i) :
    i.wf = true ∧ (encode i).op = l.op ∧ (encode i).args.length = l.args.length ∧
      ((∃ op args, i = .unrecognized op args) ↔ ∀ o : Opcode, o.mnemonic ≠ l.op) := by
  rw [← Instr.opcode?_eq_none, ← ofToken_eq_none]
  cases ho : Opcode.ofToken l.op with
  | none =>
    obtain rfl := Except.ok.inj ((decode_of_none ho).symm.trans hd)
    exact ⟨by simp [Instr.wf, ho, hl], rfl, rfl, by simp [Instr.opcode?]⟩
  | some o =>
    obtain ⟨hi, hlen⟩ := opcode_of_decode ho hd
    obtain ⟨hwf, hop, hargs⟩ := i.encode_of_opcode hi
    exact ⟨hwf, hop.trans (ofToken_eq_some.mp ho), hargs.trans hlen.symm, by simp [hi]⟩

/-- Settles O5: a line decodes within its row, and each row's reader is that of its format. -/
theorem decodeKeepsTheRow : Obligations.DecodeKeepsTheRow :=
  ⟨fun _ _ => decode_keeps_row, decodesTwo rfl, decodesThree rfl, decodesThree rfl, decodesTwo rfl, decodesOne rfl,
    decodesOne rfl, decodesOne rfl, decodesOne rfl, decodesOne rfl, decode_mnemonic .ret [], decode_mnemonic .halt []⟩

/-- Settles O6: each line is evaluated by the decoder. -/
theorem sampleLinesDecode : Obligations.SampleLinesDecode :=
  ⟨rfl, rfl, rfl, rfl, rfl, rfl⟩

end Sys2Proof.Machine

end

/-! ### The tokeniser and the text of a line (30_encoding.md R80, R81) -/

section

namespace Sys2Proof

variable {c : Char} {cs : List Char} {t : Token} {ts : List Token}

theorem flushToken_of_ne_nil (h : t ≠ []) (ts : List Token) : flushToken t ts = t :: ts := by
  rw [flushToken, if_neg h]

theorem scanTokens_space (h : isSpace c = true) (cs : List Char) : scanTokens (c :: cs) = ([], tokenise cs) := by
  rw [scanTokens, if_pos h, tokenise]

theorem scanTokens_char (h : isSpace c = false) (cs : List Char) :
    scanTokens (c :: cs) = (c :: (scanTokens cs).1, (scanTokens cs).2) := by
  simp [scanTokens, h]

/-! What is cut: proper tokens, that keep every other character. -/

theorem flatten_flushToken (t : Token) (ts : List Token) : (flushToken t ts).flatten = t ++ ts.flatten := by
  by_cases ht : t = []
  · simp [flushToken, ht]
  · simp [flushToken_of_ne_nil ht]

theorem wf_of_mem_flushToken (ht : ∀ c ∈ t, isSpace c = false) (hts : ∀ u ∈ ts, Token.wf u = true) :
    ∀ u ∈ flushToken t ts, Token.wf u = true := by
  by_cases hnil : t = []
  · simpa [flushToken, hnil] using hts
  · rw [flushToken_of_ne_nil hnil, List.forall_mem_cons]
    exact ⟨(token_wf_iff t).mpr ⟨hnil, ht⟩, hts⟩

/-- The token in progress may be empty, the complete ones are proper. -/
theorem scanTokens_wf (cs : List Char) :
    (∀ c ∈ (scanTokens cs).1, isSpace c = false) ∧ ∀ t ∈ (scanTokens cs).2, Token.wf t = true := by
  induction cs with
  | nil => simp [scanTokens]
  | cons c cs ih =>
    obtain ⟨hfirst, hrest⟩ := ih
    cases hc : isSpace c with
    | true =>
      rw [scanTokens_space hc]
      exact ⟨by simp, wf_of_mem_flushToken hfirst hrest⟩
    | false =>
      rw [scanTokens_char hc]
      exact ⟨List.forall_mem_cons.mpr ⟨hc, hfirst⟩, hrest⟩

theorem wf_of_mem_tokenise (h : t ∈ tokenise cs) : Token.wf t = true := by
  obtain ⟨hfirst, hrest⟩ := scanTokens_wf cs
  exact wf_of_mem_flushToken hfirst hrest t h

theorem scanTokens_flatten (cs : List Char) :
    (scanTokens cs).1 ++ (scanTokens cs).2.flatten = cs.filter (fun c => !isSpace c) := by
  induction cs with
  | nil => rfl
  | cons c cs ih =>
    cases hc : isSpace c with
    | true => simpa [scanTokens_space hc, tokenise, flatten_flushToken, hc] using ih
    | false => simpa [scanTokens_char hc, hc] using ih

theorem flatten_tokenise (cs : List Char) : (tokenise cs).flatten = cs.filter (fun c => !isSpace c) := by
  rw [tokenise, flatten_flushToken, scanTokens_flatten]

/-! A proper line's text is cut where the line was. -/

/-- Characters that are no whitespace join the token in progress. -/
theorem scanTokens_append (ht : ∀ c ∈ t, isSpace c = false) (cs : List Char) :
    scanTokens (t ++ cs) = (t ++ (scanTokens cs).1, (scanTokens cs).2) := by
  induction t with
  | nil => rfl
  | cons c t ih =>
    obtain ⟨hc, ht⟩ := List.forall_mem_cons.mp ht
    rw [List.cons_append, scanTokens_char hc, ih ht, List.cons_append]

/-- A proper token before whitespace or the end of the line is cut as it stands. -/
theorem tokenise_append (ht : Token.wf t = true) (hcs : scanTokens cs = ([], ts)) : tokenise (t ++ cs) = t :: ts := by
  obtain ⟨hnil, hchars⟩ := (token_wf_iff t).mp ht
  rw [tokenise, scanTokens_append hchars, hcs, List.append_nil, flushToken_of_ne_nil hnil]

theorem scanTokens_args {args : List Token} (h : ∀ t ∈ args, Token.wf t = true) :
    scanTokens (args.flatMap fun t => ' ' :: t) = ([], args) := by
  induction args with
  | nil => rfl
  | cons t args ih =>
    obtain ⟨ht, hargs⟩ := List.forall_mem_cons.mp h
    rw [List.flatMap_cons, List.cons_append, scanTokens_space rfl, tokenise_append ht (ih hargs)]

theorem Line.wf_iff {l : Line} : l.wf = true ↔ Token.wf l.op = true ∧ ∀ t ∈ l.args, Token.wf t = true := by
  simp [Line.wf]

theorem lineOfText_lineText {l : Line} (h : l.wf = true) : lineOfText (lineText l) = some l := by
  obtain ⟨hop, hargs⟩ := Line.wf_iff.mp h
  rw [lineOfText, lineText, tokenise_append hop (scanTokens_args hargs)]

/-- Settles O2: the properties of the scan from the right, flushed once more at the left end; and a line's text is its
tokens, each but the first after one space. -/
theorem tokeniserCutsProperTokens : Obligations.TokeniserCutsProperTokens :=
  ⟨fun cs => ⟨fun _ => wf_of_mem_tokenise, flatten_tokenise cs⟩, fun _ => lineOfText_lineText⟩

/-! The encoder's line. -/

/-- The encoder's line of a well-formed instruction is proper, by the family of Laws/PerInstr.lean. -/
theorem encode_wf : ∀ i : Instr, i.wf = true → (encode i).wf = true
  | .load rd imm => Laws.EncodedLine.load rd imm
  | .add rd rs1 rs2 => Laws.EncodedLine.add rd rs1 rs2
  | .sub rd rs1 rs2 => Laws.EncodedLine.sub rd rs1 rs2
  | .store rs addr => Laws.EncodedLine.store rs addr
  | .input rd => Laws.EncodedLine.input rd
  | .output rs => Laws.EncodedLine.output rs
  | .jump addr => Laws.EncodedLine.jump addr
  | .jumpz addr => Laws.EncodedLine.jumpz addr
  | .call addr => Laws.EncodedLine.call addr
  | .ret => Laws.EncodedLine.ret
  | .halt => Laws.EncodedLine.halt
  | .unrecognized op args => Laws.EncodedLine.unrecognized op args

/-- The decoder undoes the encoder: the operand tokens of a row read back, and the catch-all row takes the tokens as
they stand. -/
theorem decode_encode {i : Instr} (h : i.wf = true) : decode (encode i) = .ok i := by
  cases i with
  | load rd imm => exact (decode_mnemonic .load _).trans (parseTwo_ok _ (parseReg_regToken _) (parseLit_litToken _))
  | add rd rs1 rs2 =>
    exact (decode_mnemonic .add _).trans
      (parseThree_ok _ (parseReg_regToken rd) (parseReg_regToken rs1) (parseReg_regToken rs2))
  | sub rd rs1 rs2 =>
    exact (decode_mnemonic .sub _).trans
      (parseThree_ok _ (parseReg_regToken rd) (parseReg_regToken rs1) (parseReg_regToken rs2))
  | store rs addr => exact (decode_mnemonic .store _).trans (parseTwo_ok _ (parseReg_regToken _) (parseLit_litToken _))
  | input rd => exact (decode_mnemonic .input _).trans (parseOne_ok _ (parseReg_regToken _))
  | output rs => exact (decode_mnemonic .output _).trans (parseOne_ok _ (parseReg_regToken _))
  | jump addr => exact (decode_mnemonic .jump _).trans (parseOne_ok _ (parseLit_litToken _))
  | jumpz addr => exact (decode_mnemonic .jumpz _).trans (parseOne_ok _ (parseLit_litToken _))
  | call addr => exact (decode_mnemonic .call _).trans (parseOne_ok _ (parseLit_litToken _))
  | ret => exact decode_mnemonic .ret []
  | halt => exact decode_mnemonic .halt []
  | unrecognized op args =>
    simp only [Instr.wf, Bool.and_eq_true, Option.isNone_iff_eq_none] at h
    exact decode_of_none h.1

/-- Settles O1: digits written are read back within each operand token, and the encoder's line is proper, so that its
text reads back. -/
theorem decodeReadsBackEncode : Obligations.DecodeReadsBackEncode :=
  fun i h => ⟨decode_encode h, lineOfText_lineText (encode_wf i h)⟩

end Sys2Proof

end

/-! ### The transcriber (30_encoding.md R93) -/

section

namespace Sys2Proof.Machine

theorem isProgramText_iff {l : Line} : isProgramText l = true ↔
    (∃ c cs, l.op = c :: cs ∧ c.isAlpha = true ∧ ∀ d ∈ cs, d.isAlphanum = true) ∧
      ∀ tok ∈ l.args, ∃ n, parseReg tok = some n ∨ parseLit tok = some n := by
  simp only [isProgramText, Bool.and_eq_true, mnemonicShape_iff, List.all_eq_true, operandShape_iff]

/-- The transcriber passes a text line by line; the position it counts is for refusals alone. -/
theorem transcribe_eq_ok {n : Nat} {texts : List (List Char)} {p : List Line} : transcribe n texts = .ok p ↔
    p.map some = texts.map lineOfText ∧
      ∀ l ∈ p, mnemonicInOtherCase l.op = false ∧ isProgramText l = true := by
  induction texts generalizing n p with
  | nil =>
    constructor
    · rintro ⟨⟩
      exact ⟨rfl, by simp⟩
    · rintro ⟨hlines, -⟩
      rw [List.map_eq_nil_iff.mp hlines, transcribe]
  | cons cs rest ih =>
    simp only [transcribe_cons, transcribeLine_eq_ok, ih]
    constructor
    · rintro ⟨l, ls, rfl, ⟨hline, hchecks⟩, hrest, hpassed⟩
      exact ⟨by simp [hline, hrest], List.forall_mem_cons.mpr ⟨hchecks, hpassed⟩⟩
    · rintro ⟨hlines, hpassed⟩
      cases p with
      | nil => cases hlines
      | cons l ls =>
        obtain ⟨hline, hrest⟩ := List.cons.inj hlines
        obtain ⟨hchecks, hpassed⟩ := List.forall_mem_cons.mp hpassed
        exact ⟨l, ls, rfl, ⟨hline.symm, hchecks⟩, hrest, hpassed⟩

/-- Settles O14: the checks of one line, spelled out. -/
theorem transcriberGivesOneInstructionALine : Obligations.TranscriberGivesOneInstructionALine := by
  intro texts p
  simp only [transcribe_eq_ok, mnemonicInOtherCase_eq_false, isProgramText_iff]

end Sys2Proof.Machine

end

/-! ### The assembler's whitelist and unrecognized reports (30_encoding.md R95, 45_halt_unrecognized.md R191) -/

section

namespace Sys2Proof.Machine

/-- Every line's opcode is in the whitelist (R95). -/
def Whitelisted (p : List Line) : Prop := ∀ l ∈ p, ∃ o : Opcode, o.mnemonic = l.op

theorem whitelisted_cons {l : Line} {p : List Line} :
    Whitelisted (l :: p) ↔ (∃ o : Opcode, o.mnemonic = l.op) ∧ Whitelisted p :=
  List.forall_mem_cons

/-- A whitelisted program passes unchanged. -/
theorem assemble_of_whitelisted {p : List Line} (h : Whitelisted p) (n : Nat) : assemble n p = .ok p := by
  induction p generalizing n with
  | nil => rfl
  | cons l p ih =>
    obtain ⟨⟨o, ho⟩, hp⟩ := whitelisted_cons.mp h
    rw [assemble_cons p ho, ih hp]
    rfl

/-- After a whitelisted program the first unknown opcode fails, at its own position. -/
theorem assemble_first_unknown {p : List Line} {l : Line} (hp : Whitelisted p)
    (hl : ∀ o : Opcode, o.mnemonic ≠ l.op) (n : Nat) (post : List Line) :
    assemble n (p ++ l :: post) = .error (.unknownInstruction l (n + p.length)) := by
  induction p generalizing n with
  | nil => exact assemble_cons_unknown post hl
  | cons m p ih =>
    obtain ⟨⟨o, ho⟩, hp⟩ := whitelisted_cons.mp hp
    rw [List.cons_append, assemble_cons _ ho, ih hp, List.length_cons, Nat.add_assoc, Nat.add_comm 1]
    rfl

/-- A program is whitelisted, or it has a first line that is not. -/
theorem whitelisted_or_first_unknown (p : List Line) :
    Whitelisted p ∨ ∃ pre l post, p = pre ++ l :: post ∧ Whitelisted pre ∧ ∀ o : Opcode, o.mnemonic ≠ l.op := by
  induction p with
  | nil => exact .inl (by simp [Whitelisted])
  | cons m p ih =>
    by_cases hm : ∃ o : Opcode, o.mnemonic = m.op
    · rcases ih with hp | ⟨pre, l, post, rfl, hpre, hl⟩
      · exact .inl (whitelisted_cons.mpr ⟨hm, hp⟩)
      · exact .inr ⟨m :: pre, l, post, rfl, whitelisted_cons.mpr ⟨hm, hpre⟩, hl⟩
    · exact .inr ⟨[], m, p, rfl, by simp [Whitelisted], not_exists.mp hm⟩

theorem assemble_eq_ok {n : Nat} {p q : List Line} : assemble n p = .ok q ↔ q = p ∧ Whitelisted p := by
  constructor
  · intro h
    rcases whitelisted_or_first_unknown p with hp | ⟨pre, l, post, rfl, hpre, hl⟩
    · exact ⟨Except.ok.inj (h.symm.trans (assemble_of_whitelisted hp n)), hp⟩
    · rw [assemble_first_unknown hpre hl] at h
      cases h
  · rintro ⟨rfl, hp⟩
    exact assemble_of_whitelisted hp n

variable {s t : State} {i : Instr} {l : Line}

/-- The one effect that reports an unrecognized opcode is that of the catch-all row. -/
theorem ExecEffect.mem_unrecognized (he : ExecEffect i s t) (h : .unrecognized l ∈ t.reports) :
    .unrecognized l ∈ s.reports ∨ i.opcode? = none := by
  cases he with
  | reported op args hi => exact .inr (hi ▸ rfl)
  | faulted f hf hi => exact .inl (by simpa using h)
  | inputFaulted rd f hf hi => exact .inl (by simpa using h)
  | wroteInput d v hd hv hz hi => exact .inl (by simpa using h)
  | _ => exact .inl h

/-- A step reports an unrecognized opcode only where it fetches a line whose token 0 is no mnemonic. -/
theorem step_mem_unrecognized (hstep : step s = .next t) (h : .unrecognized l ∈ t.reports) :
    .unrecognized l ∈ s.reports ∨ ∃ m ∈ s.program, ∀ o : Opcode, o.mnemonic ≠ m.op := by
  rcases step_cases s with ⟨-, e⟩ | ⟨-, -, e⟩ | ⟨m, err, -, -, e⟩ | ⟨m, i, u, hm, hd, -, he, e⟩
  all_goals
    rw [e] at hstep
    cases hstep
  · exact .inl h
  · exact .inl (by simpa using h)
  · exact .inl (by simpa using h)
  · have hu : .unrecognized l ∈ u.reports := by
      rcases reportIfHalted_eq u with ⟨r, -, e⟩ | ⟨-, e⟩
      · simpa [e] using h
      · rwa [e] at h
    refine (he.mem_unrecognized hu).imp_right fun hi => ⟨m, List.mem_of_getElem? hm.2, ofToken_eq_none.mp ?_⟩
    cases ho : Opcode.ofToken m.op with
    | none => rfl
    | some o =>
      obtain ⟨hrow, -⟩ := opcode_of_decode ho hd
      rw [hi] at hrow
      cases hrow

/-- `t` has the program of `s` and no report of an unrecognized opcode that `s` does not have. -/
def State.ReportsNoNewUnrecognized (s t : State) : Prop :=
  t.program = s.program ∧ ∀ l, Report.unrecognized l ∈ t.reports → Report.unrecognized l ∈ s.reports

theorem step_keeps_reportsNoNewUnrecognized {u : State} (hp : Whitelisted s.program)
    (ht : s.ReportsNoNewUnrecognized t) (hstep : step t = .next u) : s.ReportsNoNewUnrecognized u := by
  obtain ⟨hprogram, hreports⟩ := ht
  obtain ⟨-, -, hprogram', -⟩ := sameConfiguration_step hstep
  refine ⟨hprogram'.trans hprogram, fun l hl => ?_⟩
  rcases step_mem_unrecognized hstep hl with hold | ⟨m, hm, hunknown⟩
  · exact hreports l hold
  · obtain ⟨o, ho⟩ := hp m (hprogram ▸ hm)
    exact absurd ho (hunknown o)

/-- Settles O13: the assembler passes the whitelisted programs alone, and every step of a run of one keeps the program
and adds no report of an unrecognized opcode. -/
theorem assembledProgramsReportNoUnrecognized : Obligations.AssembledProgramsReportNoUnrecognized := by
  refine ⟨fun p q => assemble_eq_ok, ?firstUnknown, ?run⟩
  case firstUnknown =>
    intro p post l hp hl
    rw [assemble_first_unknown hp hl, Nat.zero_add]
  case run =>
    intro p q hq k s t hs hrun
    obtain ⟨rfl, hp⟩ := assemble_eq_ok.mp hq
    obtain ⟨-, hreports⟩ : s.ReportsNoNewUnrecognized t :=
      runFor_keeps (P := s.ReportsNoNewUnrecognized)
        (fun _ _ => step_keeps_reportsNoNewUnrecognized (hs ▸ hp)) k s t ⟨rfl, fun _ => id⟩ hrun
    exact hreports

end Sys2Proof.Machine

end

/-! ### Fetch, and the word a load places for it (40_cycle.md R111) -/

section

namespace Sys2Proof.Machine

variable {s t : State} {i : Instr} {l : Line}

theorem fetch_of_some (h : s.program[s.pc]? = some l) : fetch s = fetched l s := by
  simp only [fetch, h]

theorem fetch_of_length_le (h : s.program.length ≤ s.pc) : fetch s = s.setIr .endMarker := by
  simp only [fetch, List.getElem?_eq_none h]

/-- Settles O15: the two branches of fetch, and an empty program has no position at all. -/
theorem fetchReadsTheProgram : Obligations.FetchReadsTheProgram := by
  intro s
  refine ⟨fun hin => ?within, fetch_of_length_le, fun hempty => ?empty⟩
  case within =>
    have hl : s.program[s.pc]? = some s.program[s.pc] := List.getElem?_eq_getElem hin
    exact ⟨_, hl, fetch_of_some hl⟩
  case empty =>
    rw [fetch_of_length_le (by simp [hempty]), State.setIr_ir]

/-- A word that reads as an instruction spells a line that decodes to it. -/
theorem line_of_decodeTableWord {nbits w : Nat} (h : decodeTableWord nbits w = some i) :
    ∃ l, lineOfWord nbits w = some l ∧ decode l = .ok i := by
  unfold decodeTableWord at h
  cases hl : lineOfWord nbits w with
  | none => simp [hl] at h
  | some l =>
    cases hd : decode l with
    | error e => simp [hl, hd, Except.toOption] at h
    | ok j =>
      obtain rfl : j = i := by simpa [hl, hd, Except.toOption] using h
      exact ⟨l, rfl, hd⟩

theorem withFetchWord_of_line {nbits w : Nat} (h : lineOfWord nbits w = some l) (s : State) :
    s.withFetchWord nbits w = withFetchLine l s := by
  simp only [State.withFetchWord, placeFetchWord, h]

theorem withFetchLine_fetches (l : Line) (s : State) : (withFetchLine l s).Fetches l :=
  ⟨rfl, placeLine_getElem l s.pc s.program⟩

/-- Settles O17: the word spells a line, and placing a line is `placeLine` at `pc`, which keeps the other positions. -/
theorem withFetchWordPlacesTheLine : Obligations.WithFetchWordPlacesTheLine := by
  intro s nbits w i hword
  obtain ⟨l, hl, hd⟩ := line_of_decodeTableWord hword
  rw [withFetchWord_of_line hl]
  exact ⟨⟨l, withFetchLine_fetches l s, hd⟩, rfl, fun j => placeLine_getElem_ne l s.pc j s.program,
    placeLine_length l s.pc s.program⟩

end Sys2Proof.Machine

end

/-! ### A step as the meaning of the fetched instruction (40_cycle.md R112 to R115) -/

section

namespace Sys2Proof.Machine

variable {s t : State} {i : Instr} {l : Line}

theorem reportIfHalted_of_halted {r : HaltReason} (h : t.status = .halted r) :
    reportIfHalted t = t.emit (.registers t.regs) := by
  simp only [reportIfHalted, h]

theorem reportIfHalted_of_not_halted (h : ∀ r, t.status ≠ .halted r) : reportIfHalted t = t := by
  rcases reportIfHalted_eq t with ⟨r, hr, -⟩ | ⟨-, e⟩
  · exact absurd hr (h r)
  · exact e

/-- Once the meaning of the fetched instruction has answered, the step adds the register report of a halt. -/
theorem step_of_exec (h : s.Fetches l) (hd : decode l = .ok i) (ht : exec i (fetched l s) = .next t) :
    step s = .next (reportIfHalted t) := by
  rw [step_of_instr h hd, ht, finishCycle]

/-- Settles O16: every meaning answers a next state, and the report depends on the status in it. -/
theorem stepRunsTheDecodedInstruction : Obligations.StepRunsTheDecodedInstruction := by
  intro s l i hl hd
  obtain ⟨t, ht, -⟩ := exec_effect i (fetched l s)
  have hstep : step s = .next (reportIfHalted t) := step_of_exec hl hd ht
  refine ⟨t, ht, ?halts, ?goesOn⟩
  case halts =>
    rintro ⟨r, hr⟩
    rw [hstep, reportIfHalted_of_halted hr, State.emit]
  case goesOn =>
    intro hr
    rw [hstep, reportIfHalted_of_not_halted hr]

/-- Settles O20: each of the four ways a step goes has its next state. -/
theorem everyStepAnswersNext : Obligations.EveryStepAnswersNext := by
  intro s
  rcases step_cases s with ⟨-, e⟩ | ⟨-, -, e⟩ | ⟨l, err, -, -, e⟩ | ⟨l, i, u, -, -, -, -, e⟩
  · exact ⟨_, e⟩
  · exact ⟨_, e⟩
  · exact ⟨_, e⟩
  · exact ⟨_, e⟩

/-- A step of a state that fetches `i` is an effect of `i` at the fetched state, then the report. -/
theorem State.FetchesInstr.effect_of_step (h : s.FetchesInstr i) (hstep : step s = .next t) :
    ∃ l u, ExecEffect i (fetched l s) u ∧ t = reportIfHalted u := by
  obtain ⟨l, hl, hd⟩ := h
  obtain ⟨u, hu, he⟩ := exec_effect i (fetched l s)
  exact ⟨l, u, he, Host.Outcome.next.inj (hstep.symm.trans (step_of_exec hl hd hu))⟩

end Sys2Proof.Machine

end

/-! ### Which cycles halt the run (40_cycle.md R113) -/

section

namespace Sys2Proof.Machine

variable {s t : State} {i : Instr} {r : HaltReason}

/-- `i` run in `s` signals halt with the reason `r`: HALT, or RET on an empty CallStack (R113). -/
def HaltsWith (i : Instr) (s : State) (r : HaltReason) : Prop :=
  (i = .halt ∧ r = .haltInstruction) ∨ (i = .ret ∧ s.stack = [] ∧ r = .returnOnEmptyStack)

theorem ExecEffect.of_halt (he : ExecEffect .halt s t) : t = halt .haltInstruction s := by
  cases he with
  | halted r hi => simp_all
  | _ => simp_all [MayFault]

theorem ExecEffect.of_unrecognized {op : Token} {args : List Token} (he : ExecEffect (.unrecognized op args) s t) :
    t = s.emit (.unrecognized ⟨op, args⟩) := by
  cases he with
  | reported op' args' hi =>
    cases hi
    rfl
  | _ => simp_all [MayFault]

/-- A meaning that runs halts by these two instructions alone. -/
theorem ExecEffect.halted_iff (he : ExecEffect i s t) (hs : s.status = .running) :
    t.status = .halted r ↔ HaltsWith i s r := by
  constructor
  · intro ht
    cases he with
    | halted r' hi =>
      obtain rfl : r' = r := by simpa using ht
      exact hi
    | _ => simp_all [push]
  · rintro (⟨rfl, rfl⟩ | ⟨rfl, hstack, rfl⟩)
    · rw [he.of_halt, halt_status]
    · rcases he.of_ret with ⟨rest, v, hpopped, -⟩ | e
      · simp [hstack] at hpopped
      · rw [e, halt_status]

theorem not_fetchesInstr_of_length_le (h : s.program.length ≤ s.pc) (i : Instr) : ¬ s.FetchesInstr i :=
  fun ⟨_, hl, _⟩ => hl.not_over_program h

theorem not_fetchesInstr_of_malformed {l : Line} {e : DecodeError} (h : s.Fetches l) (hd : decode l = .error e)
    (i : Instr) : ¬ s.FetchesInstr i := by
  rintro ⟨m, hm, hdm⟩
  obtain rfl : l = m := Option.some.inj (h.2.symm.trans hm.2)
  cases hd.symm.trans hdm

/-- The three cases in which a cycle halts, for every reason at once. -/
theorem step_halted_iff (hs : s.status = .running) (hstep : step s = .next t) :
    t.status = .halted r ↔ (s.program.length ≤ s.pc ∧ r = .endOfProgram) ∨
      ∃ i, s.FetchesInstr i ∧ HaltsWith i s r := by
  rcases step_cases s with ⟨hover, -⟩ | ⟨-, hend, e⟩ | ⟨l, err, hl, hd, e⟩ | ⟨l, i, u, hl, hd, -, he, e⟩
  · exact absurd hs hover
  all_goals
    rw [e] at hstep
    cases hstep
  · simp [not_fetchesInstr_of_length_le hend, hend, eq_comm]
  · simp [not_fetchesInstr_of_malformed hl hd, hl.not_over_program]
  · rw [reportIfHalted_status, he.halted_iff hs]
    constructor
    · intro hr
      exact .inr ⟨i, ⟨l, hl, hd⟩, hr⟩
    · rintro (⟨hend, -⟩ | ⟨j, hj, hr⟩)
      · exact absurd hend hl.not_over_program
      · obtain rfl := fetchesInstr_unique hl hd hj
        exact hr

/-- Settles O21: the halting cases for each of the three reasons; an unrecognized opcode emits a report alone. -/
theorem onlyThreeCasesHalt : Obligations.OnlyThreeCasesHalt := by
  intro s t hs hstep
  refine ⟨?endOfProgram, ?haltInstruction, ?returnOnEmptyStack, ?unrecognized⟩
  case endOfProgram => simp [step_halted_iff hs hstep, HaltsWith]
  case haltInstruction => simp [step_halted_iff hs hstep, HaltsWith]
  case returnOnEmptyStack => simp [step_halted_iff hs hstep, HaltsWith]
  case unrecognized =>
    intro op args h
    obtain ⟨l, u, he, rfl⟩ := h.effect_of_step hstep
    rw [reportIfHalted_status, he.of_unrecognized]
    exact hs

end Sys2Proof.Machine

end

/-! ### Where `pc` is after each cycle (40_cycle.md R119) -/

section

namespace Sys2Proof.Machine

variable {s t : State} {i : Instr}

/-- Where `pc` is after `i` has run in `s`, whose `pc` is already the position after the instruction. -/
def nextPc (i : Instr) (s : State) : Nat :=
  match i with
  | .jump a => a
  | .call a => a
  | .jumpz a => if s.regs.getD 0 0 = 0 then a else s.pc
  | .ret => s.stack.getLast?.getD s.pc
  | _ => s.pc

/-- The instructions of no control transfer leave `pc`. -/
theorem nextPc_eq_pc (hjump : ∀ a, i ≠ .jump a) (hcall : ∀ a, i ≠ .call a) (hjumpz : ∀ a, i ≠ .jumpz a)
    (hret : i ≠ .ret) (s : State) : nextPc i s = s.pc := by
  cases i with
  | jump a => exact absurd rfl (hjump a)
  | call a => exact absurd rfl (hcall a)
  | jumpz a => exact absurd rfl (hjumpz a)
  | ret => exact absurd rfl hret
  | _ => rfl

/-- An instruction that can fault transfers no control. -/
theorem nextPc_of_mayFault (h : MayFault i) (s : State) : nextPc i s = s.pc :=
  nextPc_eq_pc (by rintro a rfl; exact h) (by rintro a rfl; exact h) (by rintro a rfl; exact h)
    (by rintro rfl; exact h) s

theorem ExecEffect.pc_eq (he : ExecEffect i s t) : t.pc = nextPc i s := by
  cases he with
  | faulted f hf hi => exact (nextPc_of_mayFault hi s).symm
  | inputFaulted rd f hf hi => simp [hi, nextPc]
  | wroteReg d v hd hv hi => rcases hi with ⟨m, rfl⟩ | ⟨a, b, rfl⟩ | ⟨a, b, rfl⟩ <;> rfl
  | wroteInput d v hd hv hz hi => simp [hi, nextPc]
  | jumped a hi =>
    rcases hi with rfl | ⟨rfl, hz⟩
    · rfl
    · have hzero : s.regs.getD 0 0 = 0 := of_decide_eq_true hz
      rw [nextPc, if_pos hzero, State.setPc_pc]
  | fellThrough a hi hz =>
    have hzero : s.regs.getD 0 0 ≠ 0 := of_decide_eq_false hz
    rw [hi, nextPc, if_neg hzero]
  | returned rest v hs hi => simp [hi, nextPc, hs]
  | halted r hi => rcases hi with ⟨rfl, -⟩ | ⟨rfl, hs, -⟩ <;> simp [nextPc, *]
  | _ => simp_all [nextPc]

/-- Settles O22: `pc` after the cycle is `nextPc` of the instruction at the fetched state, read off case by case. -/
theorem pcAfterEachInstruction : Obligations.PcAfterEachInstruction := by
  intro s t i h hstep
  obtain ⟨l, u, he, rfl⟩ := h.effect_of_step hstep
  have hpc : (reportIfHalted u).pc = nextPc i (fetched l s) := (reportIfHalted_pc u).trans he.pc_eq
  rw [hpc]
  refine ⟨?jumpOrCall, ?jumpz, ?ret, ?retOnEmptyStack, ?other⟩
  case jumpOrCall => rintro a (rfl | rfl) <;> rfl
  case jumpz =>
    rintro a rfl
    rfl
  case ret =>
    rintro rfl rest v hstack
    simp [nextPc, hstack]
  case retOnEmptyStack =>
    rintro rfl hstack
    simp [nextPc, hstack]
  case other =>
    intro hjump hcall hjumpz hret
    exact nextPc_eq_pc hjump hcall hjumpz hret _

end Sys2Proof.Machine

end

/-! ### The ALU's answers (41_alu.md R131 to R137, R144) -/

section

namespace Sys2Proof.Machine

variable {s : State} {r : Registry} {op : Token} {fn : FnHandle}

theorem aluExecute_of_custom (h : r.find op = some fn) (a : Int) (b : Option Int) :
    aluExecute r op a b = .value (Config.customOp fn a b) := by
  rw [aluExecute, h]

theorem aluExecute_of_builtin (h : r.find op = none) (a : Int) (b : Option Int) :
    aluExecute r op a b = aluBuiltin op a b := by
  rw [aluExecute, h]

theorem aluBuiltin_add (a b : Int) : aluBuiltin aluAdd a (some b) = .value (a + b) := rfl

theorem aluBuiltin_sub (a b : Int) : aluBuiltin aluSub a (some b) = .value (a - b) := rfl

theorem aluBuiltin_load (a : Int) (b : Option Int) : aluBuiltin aluLoad a b = .value a := rfl

theorem aluBuiltin_none (h : op = aluAdd ∨ op = aluSub) (a : Int) : aluBuiltin op a none = .noMeaning := by
  rcases h with rfl | rfl <;> rfl

theorem aluBuiltin_unknown (hadd : op ≠ aluAdd) (hsub : op ≠ aluSub) (hload : op ≠ aluLoad) (hhalt : op ≠ aluHalt)
    (a : Int) (b : Option Int) : aluBuiltin op a b = .unknownOperation op := by
  simp only [aluBuiltin, hadd, hsub, hload, hhalt, if_false]

theorem hostAlu_noMeaning {a : Int} {b : Option Int} (h : aluExecute s.registry op a b = .noMeaning) :
    hostAlu op a b s = .refused (.missingOperand op) := by
  rw [hostAlu, h]

/-- Settles O29: without a registered function each of the three calls is its built-in. -/
theorem aluBuiltinsAreExact : Obligations.AluBuiltinsAreExact := by
  intro r a b
  refine ⟨?add, ?sub, ?load⟩
  case add =>
    intro h
    rw [aluExecute_of_builtin h, aluBuiltin_add]
  case sub =>
    intro h
    rw [aluExecute_of_builtin h, aluBuiltin_sub]
  case load =>
    intro h c
    rw [aluExecute_of_builtin h, aluBuiltin_load]

/-- Settles O30: the sentinel, the unknown name, and the refusal that the host port makes of an answer without
meaning. -/
theorem aluOtherNames : Obligations.AluOtherNames := by
  intro s a b
  refine ⟨?halt, ?unknown, ?missingOperand⟩
  case halt =>
    intro h
    exact aluExecute_halt h a b
  case unknown =>
    intro op h hadd hsub hload hhalt
    rw [aluExecute_of_builtin h, aluBuiltin_unknown hadd hsub hload hhalt]
  case missingOperand =>
    intro hout op hop h
    have hanswer : aluExecute s.registry op a none = .noMeaning := by
      rw [aluExecute_of_builtin h, aluBuiltin_none hop]
    rw [hostStep_aluExecute hout, hostAlu_noMeaning hanswer]

/-! `define_operation` on the registry. -/

theorem registry_find_define_same (name : Token) (fn : FnHandle) (r : Registry) :
    (r.define name fn).find name = some fn := by
  rw [registry_find_define, if_pos rfl]

theorem registry_find_define_of_ne {n name : Token} (h : n ≠ name) (fn : FnHandle) (r : Registry) :
    (r.define name fn).find n = r.find n := by
  rw [registry_find_define, if_neg h]

/-- The state after `define_operation(name, fn)`: the registry alone has changed. -/
def State.defineOp (name : Token) (fn : FnHandle) (s : State) : State :=
  { s with registry := s.registry.define name fn }

theorem hostStep_defineOperation (h : runInProgress s = false) (name : Token) (fn : FnHandle) :
    hostStep (.defineOperation name fn) s = .ok .done (s.defineOp name fn) := by
  simp [hostStep, h, State.defineOp]

/-- Settles O31: outside a run the call answers the state with the entry defined, during one it is refused as every
host call is, and a step keeps the configuration. -/
theorem defineOperationInsertsOrOverwrites : Obligations.DefineOperationInsertsOrOverwrites := by
  intro s name fn
  refine ⟨?defines, ?refused, ?step⟩
  case defines =>
    intro hout
    refine ⟨s.defineOp name fn, hostStep_defineOperation hout name fn, ?_, ?_, rfl⟩
    · exact registry_find_define_same name fn s.registry
    · intro n hn
      exact registry_find_define_of_ne hn fn s.registry
  case refused =>
    intro hrun
    exact hostStep_of_runInProgress hrun _
  case step =>
    intro t hstep
    obtain ⟨-, -, -, hregistry⟩ := sameConfiguration_step hstep
    exact hregistry

end Sys2Proof.Machine

end

/-! ### LOAD, ADD and SUB (41_alu.md R139 to R142) -/

section

namespace Sys2Proof.Machine

variable {s : State} {a b rs1 rs2 : Nat}

/-! What the three meanings write back. -/

theorem aluThen_of_value {op : Token} {x z : Int} {y : Option Int} (h : aluExecute s.registry op x y = .value z)
    (k : Int → StepOutcome) : aluThen op x y s k = k z := by
  rw [aluThen, h]

theorem exec_load_of_value {imm : Nat} {z : Int} (h : aluExecute s.registry aluLoad imm none = .value z) (rd : Nat) :
    exec (.load rd imm) s = writeBack rd z s := by
  rw [exec, execLoad, aluThen_of_value h]

section Sources

variable {z : Int} (ha : readReg rs1 s = .ok a) (hb : readReg rs2 s = .ok b)
include ha hb

theorem exec_add_of_value (h : aluExecute s.registry aluAdd a (some (b : Int)) = .value z) (rd : Nat) :
    exec (.add rd rs1 rs2) s = writeBack rd z s := by
  rw [exec, execAdd, ha, orRaise_ok, hb, orRaise_ok, aluThen_of_value h]

theorem exec_sub_of_value (h : aluExecute s.registry aluSub a (some (b : Int)) = .value z) (rd : Nat) :
    exec (.sub rd rs1 rs2) s = writeBack rd z s := by
  rw [exec, execSub, ha, orRaise_ok, hb, orRaise_ok, aluThen_of_value h]

/-- The built-in ADD writes back the sum of its sources (R141). -/
theorem exec_add_of_builtin (h : s.registry.find aluAdd = none) (rd : Nat) :
    exec (.add rd rs1 rs2) s = writeBack rd ((a : Int) + b) s :=
  exec_add_of_value ha hb (by rw [aluExecute_of_builtin h, aluBuiltin_add]) rd

/-- The built-in SUB writes back the difference of its sources (R142). -/
theorem exec_sub_of_builtin (h : s.registry.find aluSub = none) (rd : Nat) :
    exec (.sub rd rs1 rs2) s = writeBack rd ((a : Int) - b) s :=
  exec_sub_of_value ha hb (by rw [aluExecute_of_builtin h, aluBuiltin_sub]) rd

end Sources

/-- Settles O32: the ALU answers the custom function's value, and each of the three meanings writes back what the
ALU answers. -/
theorem customOperationsShadowBuiltins : Obligations.CustomOperationsShadowBuiltins := by
  intro s fn rd rs1 rs2 imm a b
  refine ⟨?answer, ?load, fun ha hb => ⟨?add, ?sub⟩⟩
  case answer =>
    intro op x y h
    exact aluExecute_of_custom h x y
  case load =>
    intro h
    exact exec_load_of_value (aluExecute_of_custom h _ _) rd
  case add =>
    intro h
    exact exec_add_of_value ha hb (aluExecute_of_custom h _ _) rd
  case sub =>
    intro h
    exact exec_sub_of_value ha hb (aluExecute_of_custom h _ _) rd

/-! A natural number written back: three exclusive cases. -/

theorem readReg_of_getElem? {i : Nat} {v : Value} (hi : i < s.params.numRegs) (h : s.regs[i]? = some v) :
    readReg i s = .ok v := by
  rw [readReg_of_lt hi, List.getD_eq_getElem?_getD, h, Option.getD_some]

/-- A natural number that is no Value is too large (R12). -/
theorem canon_of_not_isValue {p : Params} {v : Nat} (h : p.isValue v = false) :
    canon p (v : Int) = .error (.valueOverflow v) := by
  rcases canon_spec p v with ⟨u, hu, hvalue, -⟩ | ⟨hneg, -⟩ | ⟨-, w, -, -, e⟩
  · obtain rfl : u = v := Int.ofNat.inj hu
    rw [h] at hvalue
    cases hvalue
  · omega
  · exact e

theorem writeBack_writes {d : Nat} {v : Value} (hd : d < s.params.numRegs) (hv : s.params.isValue v = true) :
    writeBack d (v : Int) s = .next { s with regs := s.regs.set d v } := by
  rw [writeBack_of_isValue hv, writeReg_of_lt hd, orRaise_ok]
  rfl

theorem writeBack_overflow {v : Nat} (hv : s.params.isValue v = false) (d : Nat) :
    writeBack d (v : Int) s = .next (takeFault (.valueOverflow v) s) :=
  writeBack_of_canon_error (canon_of_not_isValue hv) d

theorem writeBack_invalidRegister {d : Nat} {v : Value} (hd : s.params.numRegs ≤ d)
    (hv : s.params.isValue v = true) : writeBack d (v : Int) s = .next (takeFault (.invalidRegister d) s) := by
  rw [writeBack_of_isValue hv, writeReg_of_le hd, orRaise_error]

/-! Which numbers are Values. -/

theorem isValue_of_unbounded {p : Params} (h : p.valueBits = none) (v : Nat) : p.isValue v = true := by
  rw [Params.isValue, h]

theorem isValue_of_le {p : Params} {u v : Nat} (h : u ≤ v) (hv : p.isValue v = true) : p.isValue u = true := by
  cases hw : p.valueBits with
  | none => exact isValue_of_unbounded hw u
  | some w =>
    simp only [Params.isValue, hw, decide_eq_true_eq] at hv ⊢
    omega

/-- Settles O34: the built-in LOAD writes back its immediate, in the three cases of a natural number written back. -/
theorem loadWritesTheImmediate : Obligations.LoadWritesTheImmediate := by
  intro s rd imm hfind
  rw [exec_load_of_builtin hfind]
  exact ⟨writeBack_writes, fun hv => writeBack_overflow hv rd, writeBack_invalidRegister⟩

/-- Settles O35: the built-in ADD writes back the sum of its sources, which is a natural number. -/
theorem addWritesTheSum : Obligations.AddWritesTheSum := by
  intro s rd rs1 rs2 a b hfind hrs1 hrs2 ha hb
  rw [exec_add_of_builtin (readReg_of_getElem? hrs1 ha) (readReg_of_getElem? hrs2 hb) hfind, ← Nat.cast_add]
  exact ⟨writeBack_writes, fun hw => isValue_of_unbounded hw (a + b), fun hv => writeBack_overflow hv rd,
    writeBack_invalidRegister⟩

/-- Settles O36: a difference that is not negative is at most the first source, so a Value; a negative one fails the
check of the result. -/
theorem subWritesTheDifferenceOrFaults : Obligations.SubWritesTheDifferenceOrFaults := by
  intro s rd rs1 rs2 a b hfind hrs1 hrs2 ha hb hvalue
  rw [exec_sub_of_builtin (readReg_of_getElem? hrs1 ha) (readReg_of_getElem? hrs2 hb) hfind]
  have hdiff : s.params.isValue (a - b) = true := isValue_of_le (Nat.sub_le a b) hvalue
  refine ⟨?writes, ?negative, ?invalidRegister⟩
  case writes =>
    intro hrd hle
    rw [← Nat.cast_sub hle]
    exact writeBack_writes hrd hdiff
  case negative =>
    intro hlt
    exact writeBack_of_canon_error (canon_negative s.params (Int.sub_neg_of_lt (Int.ofNat_lt.mpr hlt))) rd
  case invalidRegister =>
    intro hrd hle
    rw [← Nat.cast_sub hle]
    exact writeBack_invalidRegister hrd hdiff

end Sys2Proof.Machine

end

/-! ### Operations no instruction calls (41_alu.md R143) -/

section

namespace Sys2Proof.Machine

/-- An outcome with its next state changed by `g`. -/
def mapNext (g : State → State) : StepOutcome → StepOutcome
  | .next t => .next (g t)
  | .fault f => .fault f
  | .refused r => .refused r

variable (name : Token) (fn : FnHandle) (s : State)

/-! The shared operations do not look at the registry, and leave a defined operation in it. -/

theorem orRaise_defineOp {α : Type} (x : Except Fault α) {k l : α → StepOutcome}
    (h : ∀ a, k a = mapNext (State.defineOp name fn) (l a)) :
    orRaise x (s.defineOp name fn) k = mapNext (State.defineOp name fn) (orRaise x s l) := by
  cases x with
  | ok a => exact h a
  | error f => rfl

theorem writeReg_defineOp (d : Nat) (v : Value) :
    writeReg d v (s.defineOp name fn) = (writeReg d v s).map (State.defineOp name fn) := by
  rcases writeReg_spec d v s with ⟨hd, e⟩ | ⟨hd, e⟩
  · rw [e, writeReg_of_lt (s := s.defineOp name fn) hd]
    rfl
  · rw [e, writeReg_of_le (s := s.defineOp name fn) hd]
    rfl

theorem memWrite_defineOp (a : Nat) (v : Value) :
    memWrite a v (s.defineOp name fn) = (memWrite a v s).map (State.defineOp name fn) := by
  rcases memWrite_spec a v s with ⟨ha, e⟩ | ⟨ha, e⟩
  · rw [e, memWrite_of_lt (s := s.defineOp name fn) ha]
    rfl
  · rw [e, memWrite_of_le (s := s.defineOp name fn) ha]
    rfl

/-- A write whose answer has the defined operation in it, taken as the next state or raised. -/
theorem orRaise_map_defineOp (x : Except Fault State) :
    orRaise (x.map (State.defineOp name fn)) (s.defineOp name fn) .next =
      mapNext (State.defineOp name fn) (orRaise x s .next) := by
  cases x with
  | ok t => rfl
  | error f => rfl

theorem writeBack_defineOp (d : Nat) (z : Int) :
    writeBack d z (s.defineOp name fn) = mapNext (State.defineOp name fn) (writeBack d z s) :=
  orRaise_defineOp name fn s (canon s.params z) fun v => by
    rw [writeReg_defineOp, orRaise_map_defineOp]

theorem ioIn_defineOp : ioIn (s.defineOp name fn) = ((ioIn s).1, (ioIn s).2.defineOp name fn) := by
  unfold ioIn State.defineOp
  cases s.inputs with
  | nil => rfl
  | cons z rest => rfl

theorem pop_defineOp :
    pop (s.defineOp name fn) = (pop s).map fun p => (p.1, p.2.defineOp name fn) := by
  unfold pop State.defineOp
  cases s.stack.getLast? with
  | none => rfl
  | some v => rfl

theorem fetch_defineOp : fetch (s.defineOp name fn) = (fetch s).defineOp name fn := by
  unfold fetch State.defineOp
  cases s.program[s.pc]? with
  | none => rfl
  | some l => rfl

theorem reportIfHalted_defineOp :
    reportIfHalted (s.defineOp name fn) = (reportIfHalted s).defineOp name fn := by
  rcases reportIfHalted_eq s with ⟨r, hr, e⟩ | ⟨hr, e⟩
  · rw [e, reportIfHalted_of_halted (t := s.defineOp name fn) hr]
    rfl
  · rw [e, reportIfHalted_of_not_halted (t := s.defineOp name fn) hr]

theorem finishCycle_mapNext_defineOp (o : StepOutcome) :
    finishCycle (mapNext (State.defineOp name fn) o) = mapNext (State.defineOp name fn) (finishCycle o) := by
  cases o with
  | next t => exact congrArg Host.Outcome.next (reportIfHalted_defineOp name fn t)
  | fault f => rfl
  | refused r => rfl

/-- An ALU call under another name than the defined one answers the same. -/
theorem aluThen_defineOp {op : Token} (h : op ≠ name) (a : Int) (b : Option Int) {k l : Int → StepOutcome}
    (hk : ∀ z, k z = mapNext (State.defineOp name fn) (l z)) :
    aluThen op a b (s.defineOp name fn) k = mapNext (State.defineOp name fn) (aluThen op a b s l) := by
  have hsame : aluExecute (s.defineOp name fn).registry op a b = aluExecute s.registry op a b := by
    rw [State.defineOp, aluExecute, registry_find_define_of_ne h, aluExecute]
  unfold aluThen
  rw [hsame]
  cases aluExecute s.registry op a b with
  | value z => exact hk z
  | nopSentinel => rfl
  | unknownOperation n => rfl
  | noMeaning => rfl

section OtherName

variable {name} (hload : name ≠ aluLoad) (hadd : name ≠ aluAdd) (hsub : name ≠ aluSub)
include hload hadd hsub

/-- A meaning runs alike with the larger registry: LOAD, ADD and SUB call the ALU under their own names, and the
other instructions do not call it. -/
theorem exec_defineOp (i : Instr) :
    exec i (s.defineOp name fn) = mapNext (State.defineOp name fn) (exec i s) := by
  cases i with
  | load rd imm => exact aluThen_defineOp name fn s hload.symm _ _ (writeBack_defineOp name fn s rd)
  | add rd rs1 rs2 =>
    exact orRaise_defineOp name fn s (readReg rs1 s) fun a =>
      orRaise_defineOp name fn s (readReg rs2 s) fun b =>
        aluThen_defineOp name fn s hadd.symm _ _ (writeBack_defineOp name fn s rd)
  | sub rd rs1 rs2 =>
    exact orRaise_defineOp name fn s (readReg rs1 s) fun a =>
      orRaise_defineOp name fn s (readReg rs2 s) fun b =>
        aluThen_defineOp name fn s hsub.symm _ _ (writeBack_defineOp name fn s rd)
  | store rs addr =>
    exact orRaise_defineOp name fn s (readReg rs s) fun v => by
      rw [memWrite_defineOp, orRaise_map_defineOp]
  | input rd =>
    rw [exec, execInput, ioIn_defineOp]
    exact writeBack_defineOp name fn (ioIn s).2 rd (ioIn s).1
  | output rs => exact orRaise_defineOp name fn s (readReg rs s) fun v => rfl
  | jump addr => rfl
  | jumpz addr =>
    simp only [exec, execJumpz, mapNext]
    rw [apply_ite (State.defineOp name fn)]
    rfl
  | call addr => rfl
  | ret =>
    simp only [exec, execRet, pop_defineOp]
    cases pop s with
    | none => rfl
    | some p => rfl
  | halt => rfl
  | unrecognized op args => rfl

theorem decodeExecute_defineOp :
    decodeExecute (s.defineOp name fn) = mapNext (State.defineOp name fn) (decodeExecute s) := by
  have hir : (s.defineOp name fn).ir = s.ir := rfl
  unfold decodeExecute
  rw [hir]
  cases s.ir with
  | none => rfl
  | endMarker => rfl
  | line l =>
    simp only [runLine]
    cases decode l with
    | ok i => exact exec_defineOp fn s hload hadd hsub i
    | error e => rfl

/-- One step with the larger registry is the same step. -/
theorem step_defineOp : step (s.defineOp name fn) = mapNext (State.defineOp name fn) (step s) := by
  by_cases hrun : s.status = .running
  · have hrun' : (s.defineOp name fn).status = .running := hrun
    simp only [step, cycle, hrun, hrun', fetch_defineOp, decodeExecute_defineOp fn _ hload hadd hsub,
      finishCycle_mapNext_defineOp]
  · rw [step_of_over hrun, step_of_over (s := s.defineOp name fn) hrun]
    rfl

theorem runFor_defineOp (k : Nat) :
    runFor k (s.defineOp name fn) = mapNext (State.defineOp name fn) (runFor k s) := by
  induction k generalizing s with
  | zero => rfl
  | succ k ih =>
    rw [runFor, step_defineOp fn s hload hadd hsub, runFor]
    cases step s with
    | next t => exact ih t
    | fault f => rfl
    | refused r => rfl

end OtherName

/-- Settles O33: the run over the larger registry is the run of `s` with the operation defined in its last state. -/
theorem otherCustomOperationsAreUnreachable : Obligations.OtherCustomOperationsAreUnreachable := by
  intro k s t name fn hload hadd hsub hrun
  have hsame := runFor_defineOp fn s hload hadd hsub k
  rw [hrun] at hsame
  exact hsame

end Sys2Proof.Machine

end

/-! ### STORE (42_store.md R150) -/

section

namespace Sys2Proof.Machine

variable {s : State} {rs addr : Nat} {v : Value}

/-- With its source read, STORE is the memory write. -/
theorem exec_store_of_readReg (h : readReg rs s = .ok v) (addr : Nat) :
    exec (.store rs addr) s = orRaise (memWrite addr v s) s .next := by
  rw [exec, execStore, h, orRaise_ok]

theorem exec_store_writes (h : readReg rs s = .ok v) (ha : addr < s.params.memorySize) :
    exec (.store rs addr) s = .next (s.setMem (s.mem.put addr v)) := by
  rw [exec_store_of_readReg h, memWrite_of_lt ha, orRaise_ok]

theorem exec_store_invalidRegister (h : s.params.numRegs ≤ rs) (addr : Nat) :
    exec (.store rs addr) s = .next (takeFault (.invalidRegister rs) s) := by
  rw [exec, execStore, readReg_of_le h, orRaise_error]

theorem exec_store_invalidAddress (h : rs < s.params.numRegs) (ha : s.params.memorySize ≤ addr) :
    exec (.store rs addr) s = .next (takeFault (.invalidAddress addr) s) := by
  rw [exec_store_of_readReg (readReg_of_lt h), memWrite_of_le ha, orRaise_error]

/-- Settles O42: the register is read first, and the write in range is `put` of the old memory. -/
theorem storeWritesOneCell : Obligations.StoreWritesOneCell := by
  intro s rs addr v
  refine ⟨?writes, ?invalidRegister, exec_store_invalidAddress⟩
  case writes =>
    intro hrs hv haddr
    refine ⟨s.setMem (s.mem.put addr v), exec_store_writes (readReg_of_getElem? hrs hv) haddr, rfl, ?_⟩
    intro hcanon b
    exact Memory.get_put addr b v s.mem hcanon.1
  case invalidRegister =>
    intro hrs
    exact exec_store_invalidRegister hrs addr

end Sys2Proof.Machine

end

/-! ### No program observes memory (42_store.md R151) -/

section

namespace Sys2Proof.Machine

/-- Both outcomes are next states, and the second differs from the first in memory only. -/
def SameButMemory (o o' : StepOutcome) : Prop :=
  ∃ t m, o = .next t ∧ o' = .next (t.setMem m)

variable (s : State) (m : Memory)

/-- The same value goes on, or the same fault is taken, whatever the memory holds. -/
theorem orRaise_sameButMemory {α : Type} (x : Except Fault α) {k l : α → StepOutcome}
    (h : ∀ a, SameButMemory (k a) (l a)) : SameButMemory (orRaise x s k) (orRaise x (s.setMem m) l) := by
  cases x with
  | ok a => exact h a
  | error f => exact ⟨takeFault f s, m, rfl, rfl⟩

theorem writeBack_sameButMemory (d : Nat) (z : Int) :
    SameButMemory (writeBack d z s) (writeBack d z (s.setMem m)) :=
  orRaise_sameButMemory s m (canon s.params z) fun v => by
    rcases writeReg_spec d v s with ⟨hd, e⟩ | ⟨hd, e⟩
    · rw [e, writeReg_of_lt (s := s.setMem m) hd]
      exact ⟨s.setRegs (s.regs.set d v), m, rfl, rfl⟩
    · rw [e, writeReg_of_le (s := s.setMem m) hd]
      exact ⟨takeFault (.invalidRegister d) s, m, rfl, rfl⟩

/-- A memory write does not look at the old cells: it checks the address against the bound alone. -/
theorem memWrite_sameButMemory (a : Nat) (v : Value) :
    SameButMemory (orRaise (memWrite a v s) s .next) (orRaise (memWrite a v (s.setMem m)) (s.setMem m) .next) := by
  rcases memWrite_spec a v s with ⟨ha, e⟩ | ⟨ha, e⟩
  · rw [e, memWrite_of_lt (s := s.setMem m) ha]
    exact ⟨s.setMem (s.mem.put a v), m.put a v, rfl, rfl⟩
  · rw [e, memWrite_of_le (s := s.setMem m) ha]
    exact ⟨takeFault (.invalidAddress a) s, m, rfl, rfl⟩

theorem ioIn_setMem : ioIn (s.setMem m) = ((ioIn s).1, (ioIn s).2.setMem m) := by
  unfold ioIn State.setMem
  cases s.inputs with
  | nil => rfl
  | cons z rest => rfl

/-- No meaning reads a cell, so each answers alike over any memory. -/
theorem exec_sameButMemory (i : Instr) : SameButMemory (exec i s) (exec i (s.setMem m)) := by
  cases i with
  | load rd imm =>
    simp only [exec, execLoad, aluThen_load]
    exact writeBack_sameButMemory s m rd _
  | add rd rs1 rs2 =>
    exact orRaise_sameButMemory s m (readReg rs1 s) fun a =>
      orRaise_sameButMemory s m (readReg rs2 s) fun b => by
        simp only [aluThen_add]
        exact writeBack_sameButMemory s m rd _
  | sub rd rs1 rs2 =>
    exact orRaise_sameButMemory s m (readReg rs1 s) fun a =>
      orRaise_sameButMemory s m (readReg rs2 s) fun b => by
        simp only [aluThen_sub]
        exact writeBack_sameButMemory s m rd _
  | store rs addr => exact orRaise_sameButMemory s m (readReg rs s) (memWrite_sameButMemory s m addr)
  | input rd =>
    rw [exec, exec, execInput, execInput, ioIn_setMem]
    exact writeBack_sameButMemory (ioIn s).2 m rd (ioIn s).1
  | output rs => exact orRaise_sameButMemory s m (readReg rs s) fun v => ⟨ioOut v s, m, rfl, rfl⟩
  | jump addr => exact ⟨s.setPc addr, m, rfl, rfl⟩
  | jumpz addr =>
    refine ⟨if registerZeroIsZero s then s.setPc addr else s, m, rfl, ?_⟩
    rw [apply_ite (State.setMem · m)]
    rfl
  | call addr => exact ⟨(push s.pc s).setPc addr, m, rfl, rfl⟩
  | ret =>
    have hstack : (s.setMem m).stack = s.stack := rfl
    simp only [exec, execRet, pop, hstack]
    cases s.stack.getLast? with
    | none => exact ⟨halt .returnOnEmptyStack s, m, rfl, rfl⟩
    | some v => exact ⟨(s.setStack s.stack.dropLast).setPc v, m, rfl, rfl⟩
  | halt => exact ⟨halt .haltInstruction s, m, rfl, rfl⟩
  | unrecognized op args => exact ⟨s.emit (.unrecognized ⟨op, args⟩), m, rfl, rfl⟩

/-- The final report carries the registers, and no cell. -/
theorem reportIfHalted_setMem : reportIfHalted (s.setMem m) = (reportIfHalted s).setMem m := by
  rcases reportIfHalted_eq s with ⟨r, hr, e⟩ | ⟨hr, e⟩
  · rw [e, reportIfHalted_of_halted (t := s.setMem m) hr]
    rfl
  · rw [e, reportIfHalted_of_not_halted (t := s.setMem m) hr]

/-- Over another memory a step goes the same of its four ways. -/
theorem step_sameButMemory : SameButMemory (step s) (step (s.setMem m)) := by
  rcases step_cases s with ⟨hover, e⟩ | ⟨hrun, hend, e⟩ | ⟨l, err, hl, hd, e⟩ | ⟨l, i, u, hl, hd, hu, -, e⟩
  · exact ⟨s, m, e, step_of_over (s := s.setMem m) hover⟩
  · exact ⟨_, m, e, step_of_end (s := s.setMem m) hrun (List.getElem?_eq_none hend)⟩
  · exact ⟨_, m, e, step_of_malformed (s := s.setMem m) hl hd⟩
  · obtain ⟨t, m', ht, ht'⟩ := exec_sameButMemory (fetched l s) m i
    refine ⟨reportIfHalted t, m', step_of_exec hl hd ht, ?_⟩
    rw [step_of_exec (s := s.setMem m) hl hd ht', reportIfHalted_setMem]

theorem runFor_sameButMemory (k : Nat) : SameButMemory (runFor k s) (runFor k (s.setMem m)) := by
  induction k generalizing s m with
  | zero => exact ⟨s, m, rfl, rfl⟩
  | succ k ih =>
    obtain ⟨t, m', ht, ht'⟩ := step_sameButMemory s m
    rw [runFor, runFor, ht, ht']
    exact ih t m'

/-- Settles O44: the run over the other memory goes through states that differ in memory only. -/
theorem programsCannotObserveMemory : Obligations.ProgramsCannotObserveMemory := by
  intro k s t m hrun
  obtain ⟨u, m', hu, hu'⟩ := runFor_sameButMemory s m k
  obtain rfl : t = u := Host.Outcome.next.inj (hrun.symm.trans hu)
  exact ⟨m', hu'⟩

end Sys2Proof.Machine

end

/-! ### A row of one operand (30_encoding.md R85 to R87) -/

section

namespace Sys2Proof.Machine

variable {s : State} {l : Line} {o : Opcode}

theorem stepsToMalformed_of_decode_error {e : DecodeError} (h : s.Fetches l) (hd : decode l = .error e) :
    s.StepsToMalformed l := by
  rw [State.StepsToMalformed, step_of_malformed h hd, fetch_of_some h.2]

/-- The decoder rejects a wrong count in every row, and a row that decodes one operand rejects one that does not
parse. -/
theorem oneOperandChecked {parse : Token → Option Nat} {mk : Nat → Instr} (hone : o.format.operands = 1)
    (hdecodes : DecodesOne o parse mk) : OneOperandChecked o parse := by
  rintro s ⟨op, args⟩ hl rfl
  refine ⟨?wrongCount, ?badOperand⟩
  case wrongCount =>
    intro hcount
    have hreject := (operandCountIsCheckedFirst ⟨o.mnemonic, args⟩ o (ofToken_mnemonic o)).1
    exact stepsToMalformed_of_decode_error hl (hreject (hone ▸ hcount))
  case badOperand =>
    rintro tok rfl hparse
    exact stepsToMalformed_of_decode_error hl ((hdecodes tok).2 hparse)

end Sys2Proof.Machine

end

/-! ### INPUT and OUTPUT (43_io.md R160 to R162) -/

section

namespace Sys2Proof.Machine

variable {s t : State} {z : Int}

/-! What the device gives: a known integer, or past the end of those a draw. -/

theorem ioIn_of_cons {rest : List Int} (h : s.inputs = z :: rest) :
    ioIn s = (z, { s with inputs := rest, ioTrace := s.ioTrace ++ [.input z] }) := by
  simp only [ioIn, h, State.logIo]

theorem ioIn_of_nil (h : s.inputs = []) :
    ioIn s = (Config.ioDraw s.draws,
      { s with draws := s.draws + 1, ioTrace := s.ioTrace ++ [.input (Config.ioDraw s.draws)] }) := by
  simp only [ioIn, h, State.logIo]

/-- INPUT writes back, from the state after the take, the integer taken. -/
theorem exec_input_of_ioIn (h : ioIn s = (z, t)) (rd : Nat) : exec (.input rd) s = writeBack rd z t := by
  rw [exec, execInput, h]

/-- Settles O45: the integer is taken and logged first, and what is written back to the state after that is checked
as every result is. -/
theorem inputTakesOneInteger : Obligations.InputTakesOneInteger := by
  intro s rd
  refine ⟨?known, ?drawn⟩
  case known =>
    intro z rest hinputs
    rw [exec_input_of_ioIn (ioIn_of_cons hinputs)]
    refine ⟨?writes, ?negative, ?invalidRegister, rfl⟩
    case writes =>
      rintro v rfl hv hrd
      exact writeBack_writes hrd hv
    case negative =>
      intro hz
      exact writeBack_of_canon_error (canon_negative _ hz) rd
    case invalidRegister =>
      rintro v rfl hv hrd
      exact writeBack_invalidRegister hrd hv
  case drawn =>
    intro hinputs
    exact exec_input_of_ioIn (ioIn_of_nil hinputs) rd

theorem exec_output_delivers {rs : Nat} {v : Value} (h : readReg rs s = .ok v) :
    exec (.output rs) s = .next (s.logIo (.output v)) := by
  rw [exec, execOutput, h, orRaise_ok, ioOut]

theorem exec_output_invalidRegister {rs : Nat} (h : s.params.numRegs ≤ rs) :
    exec (.output rs) s = .next (takeFault (.invalidRegister rs) s) := by
  rw [exec, execOutput, readReg_of_le h, orRaise_error]

/-- Settles O46: the register read decides between the one event and the fault, and OUTPUT's row is one of one
operand. -/
theorem outputDeliversTheValue : Obligations.OutputDeliversTheValue := by
  refine ⟨?effect, oneOperandChecked (mk := .output) rfl (decodesOne rfl)⟩
  case effect =>
    intro s rs v
    exact ⟨fun hrs hv => exec_output_delivers (readReg_of_getElem? hrs hv), exec_output_invalidRegister⟩

end Sys2Proof.Machine

end

/-! ### Control transfer (44_control.md R172 to R175) -/

section

namespace Sys2Proof.Machine

variable {s t : State} {l : Line} {i : Instr}

/-- Settles O48: JUMP is the write of `pc`, and its row is one of one operand. -/
theorem jumpWritesPcOnly : Obligations.JumpWritesPcOnly :=
  ⟨fun _ _ => rfl, oneOperandChecked (mk := .jump) rfl (decodesOne rfl)⟩

theorem registerZeroIsZero_of_getElem? {v : Value} (h : s.regs[0]? = some v) :
    registerZeroIsZero s = decide (v = 0) := by
  rw [registerZeroIsZero, List.getD_eq_getElem?_getD, h, Option.getD_some]

theorem exec_jumpz_of_zero (h : registerZeroIsZero s = true) (addr : Nat) :
    exec (.jumpz addr) s = .next (s.setPc addr) := by
  rw [exec, execJumpz, if_pos h]

theorem exec_jumpz_of_ne_zero (h : registerZeroIsZero s = false) (addr : Nat) :
    exec (.jumpz addr) s = .next s := by
  rw [exec, execJumpz, if_neg (ne_true_of_eq_false h)]

/-- Settles O49: the test of register 0 decides between the write of `pc` and no change at all, and JUMPZ's row is
one of one operand. -/
theorem jumpzTestsRegisterZero : Obligations.JumpzTestsRegisterZero := by
  refine ⟨?effect, oneOperandChecked (mk := .jumpz) rfl (decodesOne rfl)⟩
  case effect =>
    intro s addr v hv
    have htest := registerZeroIsZero_of_getElem? hv
    exact ⟨fun hzero => exec_jumpz_of_zero (htest.trans (decide_eq_true hzero)) addr,
      fun hne => exec_jumpz_of_ne_zero (htest.trans (decide_eq_false hne)) addr⟩

theorem exec_call (addr : Nat) (s : State) : exec (.call addr) s = .next ((push s.pc s).setPc addr) := rfl

/-- A cycle whose meaning leaves the run in progress adds no report: its next state is the meaning's. -/
theorem step_of_exec_running (hl : s.Fetches l) (hd : decode l = .ok i) (ht : exec i (fetched l s) = .next t)
    (hrun : t.status = .running) : step s = .next t := by
  rw [step_of_exec hl hd ht, reportIfHalted_of_not_halted (by simp [hrun])]

/-- The cycle of a CALL pushes the position after it, since fetch has incremented `pc`. -/
theorem step_of_call {addr : Nat} (hl : s.Fetches l) (hd : decode l = .ok (.call addr)) :
    step s = .next { s with ir := .line l, pc := addr, stack := s.stack ++ [s.pc + 1] } :=
  step_of_exec_running hl hd (exec_call addr (fetched l s)) hl.1

/-- Settles O50: the meaning of CALL, its whole cycle, and its row of one operand. -/
theorem callPushesTheReturnPosition : Obligations.CallPushesTheReturnPosition :=
  ⟨fun s addr => exec_call addr s, fun _ _ _ => step_of_call, oneOperandChecked (mk := .call) rfl (decodesOne rfl)⟩

theorem exec_ret_of_nil (h : s.stack = []) : exec .ret s = .next (halt .returnOnEmptyStack s) := by
  simp [exec, execRet, pop, h]

theorem exec_ret_of_concat {rest : List Nat} {v : Nat} (h : s.stack = rest ++ [v]) :
    exec .ret s = .next ((s.setStack rest).setPc v) := by
  simp [exec, execRet, pop, h]

/-- Settles O51: the two cases of the pop. -/
theorem retPopsOrHalts : Obligations.RetPopsOrHalts :=
  fun _ => ⟨exec_ret_of_nil, fun _ _ => exec_ret_of_concat⟩

end Sys2Proof.Machine

end

/-! ### Returning to the caller (44_control.md R177, R178) -/

section

namespace Sys2Proof.Machine

variable {s t u : State} {i : Instr}

/-- A meaning works at the top of the CallStack: of the stacks before and after it, one begins with the other. -/
theorem ExecEffect.stack_prefix (he : ExecEffect i s t) : t.stack <+: s.stack ∨ s.stack <+: t.stack := by
  cases he with
  | called a hi => exact .inr (List.prefix_append s.stack [s.pc])
  | returned rest v hs hi => exact .inl (hs ▸ List.prefix_append rest [v])
  | inputFaulted rd f hf hi => exact .inl (ioIn_stack s ▸ List.prefix_rfl)
  | wroteInput d v hd hv hz hi => exact .inl (ioIn_stack s ▸ List.prefix_rfl)
  | _ => exact .inl List.prefix_rfl

theorem step_stack_prefix (h : step s = .next t) : t.stack <+: s.stack ∨ s.stack <+: t.stack := by
  rcases step_cases s with ⟨-, e⟩ | ⟨-, -, e⟩ | ⟨l, err, -, -, e⟩ | ⟨l, i, u, -, -, -, he, e⟩
  all_goals
    rw [e] at h
    cases h
  · exact .inl List.prefix_rfl
  · exact .inl List.prefix_rfl
  · exact .inl List.prefix_rfl
  · rw [reportIfHalted_stack]
    exact he.stack_prefix

/-- The entries `base` at the bottom of the CallStack outlive a step that does not return past them. -/
theorem step_keeps_stack_base {base : List Nat} (hbase : base <+: s.stack) (hstep : step s = .next t)
    (hdepth : base.length ≤ t.stack.length) : base <+: t.stack := by
  rcases step_stack_prefix hstep with hpopped | hpushed
  · exact List.prefix_of_prefix_length_le hbase hpopped hdepth
  · exact hbase.trans hpushed

/-- The same of a run that at no point returns past them. -/
theorem runFor_keeps_stack_base {base : List Nat} {k : Nat} (hbase : base <+: t.stack)
    (hrun : runFor k t = .next u)
    (hdepth : ∀ j w, j ≤ k → runFor j t = .next w → base.length ≤ w.stack.length) : base <+: u.stack := by
  induction k generalizing t with
  | zero =>
    cases hrun
    exact hbase
  | succ k ih =>
    obtain ⟨t', hstep⟩ := everyStepAnswersNext t
    have hcons : ∀ j, runFor (j + 1) t = runFor j t' := fun j => by rw [runFor, hstep]
    have hbase' : base <+: t'.stack := step_keeps_stack_base hbase hstep (hdepth 1 t' (by omega) (hcons 0))
    exact ih hbase' (hcons k ▸ hrun) fun j w hj hw => hdepth (j + 1) w (by omega) ((hcons j).trans hw)

/-- The cycle of a RET with an entry on the stack. -/
theorem step_of_ret {rest : List Nat} {v : Nat} (h : s.FetchesInstr .ret) (hstack : s.stack = rest ++ [v]) :
    ∃ l, step s = .next (((fetched l s).setStack rest).setPc v) := by
  obtain ⟨l, hl, hd⟩ := h
  exact ⟨l, step_of_exec_running hl hd (exec_ret_of_concat (s := fetched l s) hstack) hl.1⟩

/-- Settles O52: the caller's stack with the return position on it stays the base of the CallStack until the RET,
which at that depth finds no more than the base. -/
theorem returnResumesAfterTheCall : Obligations.ReturnResumesAfterTheCall := by
  rintro s t u v a k ⟨l, hl, hd⟩ hcall hrun hdepth hlength hret hstep
  have ht : t.stack = s.stack ++ [s.pc + 1] := by
    rw [← Host.Outcome.next.inj ((step_of_call hl hd).symm.trans hcall)]
  have hbase : s.stack ++ [s.pc + 1] <+: u.stack :=
    runFor_keeps_stack_base (ht ▸ List.prefix_rfl) hrun (by simpa [Nat.succ_le_iff] using hdepth)
  have hu : u.stack = s.stack ++ [s.pc + 1] := (hbase.eq_of_length (by simp [hlength])).symm
  obtain ⟨lr, hv⟩ := step_of_ret hret hu
  obtain rfl := Host.Outcome.next.inj (hstep.symm.trans hv)
  obtain ⟨-, ⟨hrunning, -⟩, -⟩ := hret
  exact ⟨rfl, rfl, hrunning⟩

end Sys2Proof.Machine

end

/-! ### HALT, the unrecognized opcode and the end of the program (45_halt_unrecognized.md R190 to R192) -/

section

namespace Sys2Proof.Machine

variable {s t : State} {l : Line} {i : Instr}

theorem exec_halt (s : State) : exec .halt s = .next (halt .haltInstruction s) := rfl

theorem exec_unrecognized (op : Token) (args : List Token) (s : State) :
    exec (.unrecognized op args) s = .next (s.emit (.unrecognized ⟨op, args⟩)) := rfl

/-- A cycle whose meaning halts the run adds the register report (R115). -/
theorem step_of_exec_halted {r : HaltReason} (hl : s.Fetches l) (hd : decode l = .ok i)
    (ht : exec i (fetched l s) = .next t) (hr : t.status = .halted r) :
    step s = .next (t.emit (.registers t.regs)) := by
  rw [step_of_exec hl hd ht, reportIfHalted_of_halted hr]

theorem fetch_ir_of_lt (h : s.pc < s.program.length) : (fetch s).ir = .line s.program[s.pc] := by
  rw [fetch_of_some (List.getElem?_eq_getElem h), State.setPc_ir, State.setIr_ir]

/-- Settles O18: outside the program the step is the halt of END, and inside it fetch puts a line in `ir`. -/
theorem endOfProgramHalts : Obligations.EndOfProgramHalts := by
  intro s hrunning
  refine ⟨fun hend => ?halts, fun hin => ?noEnd⟩
  case halts => exact step_of_end hrunning (List.getElem?_eq_none hend)
  case noEnd => simp [fetch_ir_of_lt hin]

/-- Settles O53: the meaning of HALT, and its cycle, which reports the registers that HALT leaves as they are. -/
theorem haltHalts : Obligations.HaltHalts :=
  ⟨exec_halt, fun s l hl hd => step_of_exec_halted hl hd (exec_halt (fetched l s)) (halt_status _ _)⟩

/-- Settles O54: such a line decodes to the catch-all row, whose meaning leaves the run in progress. -/
theorem unrecognizedOpcodeOnlyReports : Obligations.UnrecognizedOpcodeOnlyReports := by
  refine ⟨fun s op args => exec_unrecognized op args s, ?cycle⟩
  case cycle =>
    intro s l hl hop
    have hd : decode l = .ok (.unrecognized l.op l.args) := decode_of_none (ofToken_eq_none.mpr hop)
    exact step_of_exec_running hl hd (exec_unrecognized l.op l.args (fetched l s)) hl.1

end Sys2Proof.Machine

end

/-! ### Source registers are checked in order (60_exceptions.md R213) -/

section

namespace Sys2Proof.Machine

variable {s : State} {i : Nat}

/-- A read in range goes on with the register's value. -/
theorem orRaise_readReg_of_lt (h : i < s.params.numRegs) (k : Value → StepOutcome) :
    orRaise (readReg i s) s k = k (s.regs.getD i 0) := by
  rw [readReg_of_lt h, orRaise_ok]

/-- A read out of range faults whatever was to follow. -/
theorem orRaise_readReg_of_le (h : s.params.numRegs ≤ i) (k : Value → StepOutcome) :
    orRaise (readReg i s) s k = .next (takeFault (.invalidRegister i) s) := by
  rw [readReg_of_le h, orRaise_error]

/-- Settles O37: ADD and SUB are the read of their first source, then the read of their second, then the rest. -/
theorem sourceRegistersAreCheckedInOrder : Obligations.SourceRegistersAreCheckedInOrder := by
  intro s rd rs1 rs2
  refine ⟨?first, ?second⟩
  case first =>
    intro h1
    exact ⟨orRaise_readReg_of_le h1 _, orRaise_readReg_of_le h1 _⟩
  case second =>
    intro h1 h2
    constructor
    · exact (orRaise_readReg_of_lt h1 _).trans (orRaise_readReg_of_le h2 _)
    · exact (orRaise_readReg_of_lt h1 _).trans (orRaise_readReg_of_le h2 _)

end Sys2Proof.Machine

end

/-! ### Which cycles fault, and what they leave (60_exceptions.md R201, R208, R211) -/

section

namespace Sys2Proof.Machine

variable {s t : State} {i : Instr} {f : Fault}

/-- Settles O24: the step takes the fault in the fetched state, whose `pc - 1` is the position of the line. -/
theorem malformedLineFaults : Obligations.MalformedLineFaults :=
  fun _ _ _ hl hd => step_of_malformed hl hd

/-- A meaning that faults takes a fault of R201's last column where it starts, or for INPUT after the take of an
integer. -/
theorem ExecEffect.of_faulted (he : ExecEffect i s t) (hs : s.status = .running) (ht : t.status = .faulted f) :
    f.CanEndRun ∧ (t = takeFault f s ∨ (∃ rd, i = .input rd) ∧ t = takeFault f (ioIn s).2) := by
  cases he with
  | faulted g hg hi =>
    obtain rfl : g = f := by simpa using ht
    exact ⟨hg, .inl rfl⟩
  | inputFaulted rd g hg hi =>
    obtain rfl : g = f := by simpa using ht
    exact ⟨hg, .inr ⟨⟨rd, hi⟩, rfl⟩⟩
  | _ => simp [push, hs] at ht

/-- The same of a cycle: it has fetched a line, and the fault is taken in the fetched state, or for INPUT after the
take of an integer. -/
theorem step_faulted (hs : s.status = .running) (hstep : step s = .next t) (ht : t.status = .faulted f) :
    f.CanEndRun ∧ ∃ l, s.Fetches l ∧ (t = takeFault f (fetched l s) ∨
      (∃ rd, s.FetchesInstr (.input rd)) ∧ t = takeFault f (ioIn (fetched l s)).2) := by
  rcases step_cases s with ⟨hover, -⟩ | ⟨-, -, e⟩ | ⟨l, err, hl, -, e⟩ | ⟨l, i, u, hl, hd, -, he, e⟩
  · exact absurd hs hover
  all_goals
    rw [e] at hstep
    cases hstep
  · simp at ht
  · obtain rfl : .malformedInstruction l s.pc = f := by simpa using ht
    exact ⟨trivial, l, hl, .inl rfl⟩
  · have hu : u.status = .faulted f := (reportIfHalted_status u).symm.trans ht
    rw [reportIfHalted_of_not_halted (by simp [hu])]
    obtain ⟨hf, hwhere⟩ := he.of_faulted hs hu
    refine ⟨hf, l, hl, hwhere.imp_right ?_⟩
    rintro ⟨⟨rd, rfl⟩, hu⟩
    exact ⟨⟨rd, l, hl, hd⟩, hu⟩

/-- Settles O25: the fault is taken in the fetched state, and the take of an integer by INPUT leaves all but the
streams and the I/O trace. -/
theorem faultsArePrecise : Obligations.FaultsArePrecise := by
  intro s t f hs hstep ht
  obtain ⟨-, l, hl, hwhere⟩ := step_faulted hs hstep ht
  refine ⟨l, hl, ?_⟩
  rcases hwhere with rfl | ⟨⟨rd, hinput⟩, rfl⟩
  · simp
  · have hnot : ¬ ∀ rd, ¬ s.FetchesInstr (.input rd) := fun h => h rd hinput
    simp [hnot]

/-- The run has not ended in a fault that only a host call can raise. -/
def State.EndsNoHostFault (s : State) : Prop := ∀ f, s.status = .faulted f → f.CanEndRun

theorem step_keeps_endsNoHostFault (h : s.EndsNoHostFault) (hstep : step s = .next t) : t.EndsNoHostFault := by
  intro f ht
  by_cases hs : s.status = .running
  · exact (step_faulted hs hstep ht).1
  · obtain rfl : s = t := Host.Outcome.next.inj ((step_of_over hs).symm.trans hstep)
    exact h f ht

/-- Settles O26: a state that has not faulted has no such fault, every step keeps that it has none, and the three faults
are not among those that can end a run. -/
theorem hostOnlyFaultsNeverEndARun : Obligations.HostOnlyFaultsNeverEndARun := by
  intro k s t hsafe hrun
  have ht : t.EndsNoHostFault :=
    runFor_keeps (P := State.EndsNoHostFault) (fun _ _ => step_keeps_endsNoHostFault) k s t
      (fun f hf => absurd hf (hsafe f)) hrun
  exact ⟨fun g => ht (.invalidSegment g), fun g o => ht (.invalidOffset g o), fun n => ht (.unknownOperation n)⟩

end Sys2Proof.Machine

end

/-! ### Reset, process start and CPU construction (70_reset_and_hazards.md R231, R232) -/

section

namespace Sys2Proof.Machine

variable {p : Params} {segtab : List SegDescriptor} {mem : Memory} {ops : Registry} {rs : List Value}
  {program : List Line} {inputs : List Int} {s : State}

/-! What passes each check of a launch, and what fails it. -/

theorem paramsWf_iff : p.wf = true ↔ 1 ≤ p.numRegs := by
  simp [Params.wf]

theorem segtabWf_iff : p.segtabWf segtab = true ↔ ∀ d ∈ segtab, d.base + d.limit ≤ p.memorySize := by
  simp [Params.segtabWf]

theorem segtabWf_eq_false_iff :
    p.segtabWf segtab = false ↔ ∃ d ∈ segtab, p.memorySize < d.base + d.limit := by
  simp [Params.segtabWf]

theorem memInitWf_iff : memInitWf p mem = true ↔
    mem.wf ∧ (∀ c ∈ mem, c.1 < p.memorySize) ∧ ∀ c ∈ mem, p.isValue c.2 = true := by
  simp only [memInitWf, Bool.and_eq_true, decide_eq_true_eq, List.all_eq_true, forall₂_and]

theorem regInitWf_iff : regInitWf p rs = true ↔ rs.length = p.numRegs ∧ ∀ v ∈ rs, p.isValue v = true := by
  simp [regInitWf]

theorem launchable_eq_false_iff :
    launchable p rs program = false ↔ regInitWf p rs = false ∨ programWf program = false := by
  simp only [launchable, Bool.and_eq_false_iff]

/-! The launch state meets the invariants where its parameters pass. -/

theorem launch_wf (hparams : p.wf = true) (hseg : p.segtabWf segtab = true) (hmem : memInitWf p mem = true)
    (hregs : regInitWf p rs = true) (hprog : programWf program = true) :
    (State.launch p segtab mem ops rs program inputs).Wf := by
  obtain ⟨hcanon, hbound, hcell⟩ := memInitWf_iff.mp hmem
  obtain ⟨hlen, hval⟩ := regInitWf_iff.mp hregs
  exact ⟨paramsWf_iff.mp hparams, hlen, hval, hcanon, hbound, hcell, segtabWf_iff.mp hseg, hprog⟩

theorem State.ReturnsInProgram.of_stack_nil (h : s.stack = []) : s.ReturnsInProgram := by
  simp [State.ReturnsInProgram, h]

/-- Settles O9: reset is the launch state of the hardware's parameters, which pass every check. -/
theorem resetMeetsTheInvariants : Obligations.ResetMeetsTheInvariants :=
  ⟨launch_wf (by decide) (by decide) (by decide) (by decide) (by decide), .of_stack_nil rfl⟩

/-! What process start answers. -/

theorem processStart_badSegmentTable (h : p.segtabWf segtab = false) :
    processStart p segtab mem ops rs program inputs = .error .badSegmentTable := by
  simp [processStart, h]

theorem processStart_launches (hseg : p.segtabWf segtab = true) (hparams : p.wf = true)
    (hmem : memInitWf p mem = true) (hlaunch : launchable p rs program = true) :
    processStart p segtab mem ops rs program inputs =
      .ok (State.launch p segtab mem ops rs program inputs) := by
  simp [processStart, hseg, hparams, hmem, hlaunch]

theorem processStart_badLaunch (hseg : p.segtabWf segtab = true)
    (h : p.wf = false ∨ memInitWf p mem = false ∨ launchable p rs program = false) :
    processStart p segtab mem ops rs program inputs = .error .badLaunch := by
  rcases h with h | h | h <;> simp [processStart, hseg, h]

/-- An accepted launch has passed every check. -/
theorem processStart_eq_ok (h : processStart p segtab mem ops rs program inputs = .ok s) :
    s = State.launch p segtab mem ops rs program inputs ∧ p.segtabWf segtab = true ∧ p.wf = true ∧
      memInitWf p mem = true ∧ launchable p rs program = true := by
  unfold processStart at h
  split at h
  case isTrue hseg =>
    split at h
    case isTrue hshape =>
      simp only [Bool.and_eq_true] at hshape
      obtain ⟨⟨hparams, hmem⟩, hlaunch⟩ := hshape
      exact ⟨(Except.ok.inj h).symm, hseg, hparams, hmem, hlaunch⟩
    case isFalse => cases h
  case isFalse => cases h

/-- Settles O10: the table is checked first, then the shape of the rest, and what passed makes the launch state well
formed. -/
theorem processStartChecksTheConfiguration : Obligations.ProcessStartChecksTheConfiguration := by
  intro p segtab mem ops rs program inputs
  refine ⟨fun hbad => processStart_badSegmentTable (segtabWf_eq_false_iff.mpr hbad),
    fun hgood => ⟨fun hparams hmem hregs hprog => ?_, fun hbad => ?_⟩, fun s hok => ?_⟩
  · exact processStart_launches (segtabWf_iff.mpr hgood) hparams hmem (launchable_iff.mpr ⟨hregs, hprog⟩)
  · exact processStart_badLaunch (segtabWf_iff.mpr hgood)
      (hbad.imp_right (Or.imp_right launchable_eq_false_iff.mpr))
  · obtain ⟨rfl, hseg, hparams, hmem, hlaunch⟩ := processStart_eq_ok hok
    obtain ⟨hregs, hprog⟩ := launchable_iff.mp hlaunch
    exact ⟨rfl, launch_wf hparams hseg hmem hregs hprog, .of_stack_nil rfl⟩

/-! What construction answers, and what it makes of the invariants. -/

theorem hostStep_construct (h : runInProgress s = false) (hlaunch : launchable s.params rs program = true) :
    hostStep (.construct program rs ops) s = .ok .done (construct program rs ops s) := by
  simp [hostStep, h, hlaunch]

theorem hostStep_construct_badLaunch (h : runInProgress s = false)
    (hlaunch : launchable s.params rs program = false) :
    hostStep (.construct program rs ops) s = .refused .badLaunch := by
  simp [hostStep, h, hlaunch]

theorem State.Wf.construct (h : s.Wf) (hregs : regInitWf s.params rs = true)
    (hprog : programWf program = true) : (construct program rs ops s).Wf := by
  obtain ⟨hlen, hval⟩ := regInitWf_iff.mp hregs
  exact ⟨h.numRegs_pos, hlen, hval, h.mem_wf, h.mem_bound, h.mem_value, h.segtab_bound, hprog⟩

/-- Settles O11: construction writes the CPU's own fields only, so what it is given carries the two invariants that
speak of them. -/
theorem constructionKeepsMemory : Obligations.ConstructionKeepsMemory := by
  intro s program rs ops hidle
  refine ⟨fun hregs hprog => ?_, fun hbad => ?_⟩
  · exact ⟨construct program rs ops s, hostStep_construct hidle (launchable_iff.mpr ⟨hregs, hprog⟩),
      rfl, rfl, rfl, rfl, rfl, rfl, rfl, rfl, rfl, rfl, fun hwf => hwf.construct hregs hprog, .of_stack_nil rfl⟩
  · exact hostStep_construct_badLaunch hidle (launchable_eq_false_iff.mpr hbad)

end Sys2Proof.Machine

end
